-- ==== Sys2Proof/Word.lean ====
section
/-! DEFINITION. The words of the block and the fixed numbers of `00_scope.md` (rules R6, R7, R8, R9). -/

namespace Sys2Proof

/-- A byte, 0..255 (R8). -/
abbrev Byte := BitVec 8

/-- A 32-bit value: `u32` or, read through `toInt`, `s32` (R9). -/
abbrev Word32 := BitVec 32

/-- The bit pattern of a binary64 value (R11). -/
abbrev F64 := BitVec 64

/-- A position in the hop pattern, 0..8 (R21). -/
abbrev HopIndex := Fin 9

/-- An index into the channel list, 0..8 (R24, glossary). -/
abbrev Channel := Fin 9

/-- N_CH: the number of carrier frequencies (R6, R7). -/
def numChannels : Nat := 9

/-- PREFIX_LEN: the bytes left out of the checksum domain (R6, R7). -/
def prefixLen : Nat := 2

/-- SYMBOL_RATE, symbols per second; no rule of the block reads it (R6). -/
def symbolRate : Nat := 19200

/-- The base of the dwell time, in microseconds (R7, R116). -/
def dwellBase : Nat := 3000

/-- The step of the dwell time per identifier, in microseconds (R7, R116). -/
def dwellStep : Nat := 62500

/-- The nominal carrier deviation of a "zero" symbol, in Hz (R7, R140). -/
def nominalDeviation : Nat := 9600

/-- The first symbol period of the measurement window (R7, R141). -/
def windowFirst : Nat := 8

/-- The symbol period at which the measurement window ends (R7, R141). -/
def windowEnd : Nat := 24

end Sys2Proof
end

