-- ==== Sys2Proof/Config.lean ====
section
/-! DEFINITION. The configuration of the block (R6, R28, R254) and the values the spec leaves OPEN.
The spec makes the configuration a parameter of the step (R12, R20). The host's `step` takes a state alone, so
`State` carries a `Config` and no step changes it (log 1). -/

namespace Sys2Proof

/-- CHECKSUM_FN (R6, R158): which total function from bytes to a remainder this instance is built with.
Named by plain data, because a state may hold no function (log 3). -/
inductive ChecksumFn where
  /-- the external checksum primitive of R158, about which nothing is known (`Config.externalChecksum`); the number
  tells apart as many different primitives as one likes -/
  | external (primitive : Nat)
  /-- CK_EX of `95_test_vectors.md` section 0: the XOR of all bytes. Illustrative, not the real checksum -/
  | illustrativeXor
deriving DecidableEq, Repr

/-- FREQ_EST (R6, R140): which total function from samples to `Option Int` this instance is built with. -/
inductive FreqEst where
  /-- the default, the reference evaluation of R140 -/
  | reference
  /-- a different total function, as R140 allows (`Config.otherFreqEst`); nothing is known about it -/
  | other (evaluation : Nat)
deriving DecidableEq, Repr

/-- The configuration of R6. N_CH, PREFIX_LEN, SYMBOL_RATE and ERR_WIDTH have one value in every instance
(`Word.lean`; ERR_WIDTH is the width of `Word32`). -/
structure Config where
  /-- CHANNEL_TABLE, in Hz; each entry fits u32 by its type (R28) -/
  channelTable : Vector Word32 9
  /-- HOP_PATTERN: the channel index at each hop index -/
  hopPattern : Vector Channel 9
  /-- PKT_LEN -/
  pktLen : Nat
  /-- SAMPLE_RATE, samples per second -/
  sampleRate : Nat
  /-- SYMBOL_LEN, samples per symbol period -/
  symbolLen : Nat
  /-- PREAMBLE, passed through; no rule reads it -/
  preamble : List Bool
  /-- SYNC_LEN, passed through; no rule reads it -/
  syncLen : Nat
  /-- CFG_ID -/
  cfgId : Nat
  /-- DEDUP_DEPTH, the capacity of the duplicate cache in packets -/
  dedupDepth : Nat
  checksumFn : ChecksumFn
  freqEst : FreqEst
deriving DecidableEq, Repr

namespace Config

/-- A well-formed configuration (R6, R28, R254 step 1). -/
def wf (c : Config) : Bool :=
  decide c.hopPattern.toList.Nodup && decide (5 ≤ c.pktLen) && decide (1 ≤ c.symbolLen)
    && decide (1 ≤ c.sampleRate) && decide (c.cfgId ≤ 68719)
    && decide (1 ≤ c.dedupDepth)

/-- The default CHANNEL_TABLE: `867_500_000 + 125_000*k` Hz (R6, R119, decision D5). -/
def defaultChannelTable : Vector Word32 9 :=
  #v[867500000, 867625000, 867750000, 867875000, 868000000, 868125000, 868250000, 868375000, 868500000]

/-! ### The OPEN values of R6. None has a body, so no proof can see one. -/

/-- HOP_PATTERN: "a fixed permutation of the integers 0..8", no value in any source (D6). -/
opaque openHopPattern : Equiv.Perm (Fin 9)

/-- PKT_LEN - 5 (D7). -/
opaque openPktLenBeyondFive : Nat

/-- SAMPLE_RATE - 1 (D8). -/
opaque openSampleRateBeyondOne : Nat

/-- SYMBOL_LEN - 1 (D8). -/
opaque openSymbolLenBeyondOne : Nat

/-- PREAMBLE. -/
opaque openPreamble : List Bool

/-- SYNC_LEN. -/
opaque openSyncLen : Nat

/-- CFG_ID, 0..68719 (D9). -/
opaque openCfgId : Fin 68720

/-- DEDUP_DEPTH - 1 (D14). -/
opaque openDedupDepthBeyondOne : Nat

/-- CHECKSUM_FN: any total function of the bytes alone (R158, D16). -/
opaque externalChecksum : Nat → List Byte → Nat

/-- A FREQ_EST other than the reference evaluation (R140, D11). -/
opaque otherFreqEst : Nat → List F64 → Option Int

/-- CACHE_COUNT of a CACHE whose size is no u32; no rule states it (R20; log 5). -/
opaque openCacheCount : Nat → Word32

/-- RESYNC's draw where no input states one (R115, D21; log 2). -/
opaque openHopDraw : Fin 9

/-- READ's draw for an absent entry where no input states one (R132, D22; log 2). -/
opaque openReadDraw : Word32

/-- The instance `State.reset` is built with: every OPEN field is an opaque constant inside its legal range, every
other field has its value or default of R6 (log 14). -/
def build : Config where
  channelTable := defaultChannelTable
  hopPattern := #v[openHopPattern 0, openHopPattern 1, openHopPattern 2, openHopPattern 3, openHopPattern 4,
    openHopPattern 5, openHopPattern 6, openHopPattern 7, openHopPattern 8]
  pktLen := openPktLenBeyondFive + 5
  sampleRate := openSampleRateBeyondOne + 1
  symbolLen := openSymbolLenBeyondOne + 1
  preamble := openPreamble
  syncLen := openSyncLen
  cfgId := openCfgId.val
  dedupDepth := openDedupDepthBeyondOne + 1
  checksumFn := .external 0
  freqEst := .reference

/-- The illustrative configuration of `95_test_vectors.md` section 0. Its values are the spec's own examples, not the
hardware's. Only tests use it. -/
def illustrative : Config where
  channelTable := defaultChannelTable
  hopPattern := #v[0, 4, 8, 3, 7, 2, 6, 1, 5]
  pktLen := 6
  sampleRate := 19200
  symbolLen := 1
  preamble := []
  syncLen := 0
  cfgId := 2
  dedupDepth := 3
  checksumFn := .illustrativeXor
  freqEst := .reference

end Config

end Sys2Proof
end

