-- ==== Sys2Proof/Syntax.lean ====
section
/-! DEFINITION. The commands of the block, one constructor per row of `spec/opcode_table.json` (R72), and the record
that carries a command to the block (R70, R71). -/

namespace Sys2Proof

/-- A command. The channel operand keeps its 4 bits, because a channel of 9..15 is a command word with a meaning of
its own, BAD_CHANNEL (R73). -/
inductive Instr where
  /-- ADVANCE, OPC 0x1 (R112) -/
  | advance
  /-- RESYNC, OPC 0x2 (R114) -/
  | resync
  /-- READ ch, OPC 0x3 (R131) -/
  | read (ch : BitVec 4)
  /-- UPDATE ch, DELTA, OPC 0x4 (R134) -/
  | update (ch : BitVec 4) (delta : Word32)
  /-- BATCH, OPC 0x5 (R151) -/
  | batch
  /-- PACKET PKT, SIDX, OPC 0x6 (R152); PKT[0] is the head of the list -/
  | packet (pkt : List Byte) (sidx : Word32)
  /-- DWELL, OPC 0x7 (R116) -/
  | dwell
  /-- STATUS, OPC 0x8 (R200) -/
  | status
deriving DecidableEq, Repr

/-- What travels for one command: the command word and the operand words a command may name. A command reads only the
operands its opcode names (R71). The words are values and have no byte order (R55). -/
structure CommandRecord where
  /-- CW -/
  cw : Word32
  /-- DELTA, read by UPDATE -/
  delta : Word32
  /-- PKT, read by PACKET -/
  pkt : List Byte
  /-- SIDX, read by PACKET -/
  sidx : Word32
deriving DecidableEq, Repr

end Sys2Proof
end

