-- ==== Sys2Proof/Decode.lean ====
section
/-! DEFINITION. The decoder of R76, total on every record, and the encoder of R77. -/

namespace Sys2Proof

/-- Why a command word is illegal. Every one of these raises ILLEGAL_CMD (R76 verdict 2). -/
inductive IllegalWord where
  /-- OPC is 0x0 or 0x9..0xF -/
  | reservedOpcode
  /-- RSV is not 0 (R74) -/
  | reservedBitsSet
  /-- CH is not 0 and the opcode does not use CH (R73) -/
  | channelNotUsed
deriving DecidableEq, Repr

/-- The decoder's verdict on a record. BAD_CHANNEL (R76 verdict 3) is raised by READ and UPDATE themselves, which
keep the 4-bit channel, so that it stands in one place (log 16). -/
inductive Verdict where
  | command (i : Instr)
  | illegal (why : IllegalWord)
deriving DecidableEq, Repr

/-- OPC = CW[3:0] (R70). -/
def opcField (cw : Word32) : BitVec 4 := cw.extractLsb' 0 4

/-- CH = CW[7:4] (R70, R73). -/
def chField (cw : Word32) : BitVec 4 := cw.extractLsb' 4 4

/-- RSV = CW[31:8] (R70, R74). -/
def rsvField (cw : Word32) : BitVec 24 := cw.extractLsb' 8 24

/-- `PKT[i]` (R10), for i in 0..PKT_LEN-1. A record of another length cannot be presented (R71); where a list is
too short, the missing byte reads as 0 (log 7). -/
def pktByte (pkt : List Byte) (i : Nat) : Byte := pkt.getD i 0

/-- The packet operand: exactly PKT_LEN bytes, PKT[0] first (R54, R71). -/
def packetBytes (pktLen : Nat) (pkt : List Byte) : List Byte := (List.range pktLen).map (pktByte pkt)

/-- A command that does not use CH is legal only with CH = 0 (R73). -/
def withoutChannel (cw : Word32) (i : Instr) : Verdict :=
  if chField cw = 0 then .command i else .illegal .channelNotUsed

/-- The decoder (R70 to R77). -/
def decode (pktLen : Nat) (r : CommandRecord) : Verdict :=
  if rsvField r.cw = 0 then
    match (opcField r.cw).toNat with
    | 1 => withoutChannel r.cw .advance
    | 2 => withoutChannel r.cw .resync
    | 3 => .command (.read (chField r.cw))
    | 4 => .command (.update (chField r.cw) r.delta)
    | 5 => withoutChannel r.cw .batch
    | 6 => withoutChannel r.cw (.packet (packetBytes pktLen r.pkt) r.sidx)
    | 7 => withoutChannel r.cw .dwell
    | 8 => withoutChannel r.cw .status
    | _ => .illegal .reservedOpcode
  else .illegal .reservedBitsSet

/-- The instruction of a verdict, none where the word is illegal. -/
def Verdict.instr : Verdict → Option Instr
  | .command i => some i
  | .illegal _ => none

/-- The opcode of a command (R72). -/
def opcode : Instr → BitVec 4
  | .advance => 0x1
  | .resync => 0x2
  | .read _ => 0x3
  | .update _ _ => 0x4
  | .batch => 0x5
  | .packet _ _ => 0x6
  | .dwell => 0x7
  | .status => 0x8

/-- The CH field of a command, 0 where it uses none (R73). -/
def channelBits : Instr → BitVec 4
  | .advance => 0
  | .resync => 0
  | .read ch => ch
  | .update ch _ => ch
  | .batch => 0
  | .packet _ _ => 0
  | .dwell => 0
  | .status => 0

/-- CW of a command: RSV = 0, CH, OPC (R70, R77). -/
def encodeWord (i : Instr) : Word32 := (0#24) ++ channelBits i ++ opcode i

/-- The record of a command: its word and the operands its opcode names, every other operand at 0 (R70, R71). -/
def encode (i : Instr) : CommandRecord :=
  match i with
  | .update _ delta => { cw := encodeWord i, delta := delta, pkt := [], sidx := 0 }
  | .packet pkt sidx => { cw := encodeWord i, delta := 0, pkt := pkt, sidx := sidx }
  | .advance => { cw := encodeWord i, delta := 0, pkt := [], sidx := 0 }
  | .resync => { cw := encodeWord i, delta := 0, pkt := [], sidx := 0 }
  | .read _ => { cw := encodeWord i, delta := 0, pkt := [], sidx := 0 }
  | .batch => { cw := encodeWord i, delta := 0, pkt := [], sidx := 0 }
  | .dwell => { cw := encodeWord i, delta := 0, pkt := [], sidx := 0 }
  | .status => { cw := encodeWord i, delta := 0, pkt := [], sidx := 0 }

/-- The record whose bits are `w`, of which the lowest `nbits` are given and the others are 0: CW is bits 31..0 and the
operand record follows it, DELTA in bits 63..32, or the bytes of PKT from bit 32 on and SIDX after them (log 8). -/
def recordOfBits (pktLen nbits w : Nat) : CommandRecord :=
  let v := w % 2 ^ nbits
  { cw := BitVec.ofNat 32 v
    delta := BitVec.ofNat 32 (v / 2 ^ 32)
    pkt := (List.range pktLen).map (fun i => BitVec.ofNat 8 (v / 2 ^ (32 + 8 * i)))
    sidx := BitVec.ofNat 32 (v / 2 ^ (32 + 8 * pktLen)) }

/-- What the decoder reads from an instruction whose bits are `w`, for the block of `Config.build`. -/
def decodeTableWord (nbits w : Nat) : Option Instr :=
  (decode Config.build.pktLen (recordOfBits Config.build.pktLen nbits w)).instr

/-- The mnemonic of a command (R72, R88). -/
def mnemonic : Instr → String
  | .advance => "ADVANCE"
  | .resync => "RESYNC"
  | .read _ => "READ"
  | .update _ _ => "UPDATE"
  | .batch => "BATCH"
  | .packet _ _ => "PACKET"
  | .dwell => "DWELL"
  | .status => "STATUS"

end Sys2Proof
end

