-- ==== Sys2Proof/Machine/Float64.lean ====
section
/-! DEFINITION. The binary64 operations of R11, computed exactly on natural numbers and rounded once, to nearest with
ties to even. -/

namespace Sys2Proof.Machine

/-- What a binary64 bit pattern stands for. `finite neg m e` is the number `(-1)^neg * m * 2^e`. -/
inductive FloatValue where
  | nan
  | inf (neg : Bool)
  | finite (neg : Bool) (m : Nat) (e : Int)
deriving DecidableEq, Repr

/-- The value of a bit pattern: sign in bit 63, biased exponent in bits 62..52, fraction in bits 51..0. -/
def unpackF64 (x : F64) : FloatValue :=
  let neg := x.getLsbD 63
  let ex := (x.extractLsb' 52 11).toNat
  let frac := (x.extractLsb' 0 52).toNat
  if ex = 2047 then (if frac = 0 then .inf neg else .nan)
  else if ex = 0 then .finite neg frac (-1074)
  else .finite neg (frac + 2 ^ 52) ((ex : Int) - 1075)

/-- Bit 63 of a result. -/
def signBit (neg : Bool) : Nat := if neg then 2 ^ 63 else 0

/-- A NaN. No rule reads more of a NaN than that it is not finite (R140, R142; log 18). -/
def nanF64 : F64 := 0x7FF8000000000000#64

/-- An infinity. -/
def infF64 (neg : Bool) : F64 := BitVec.ofNat 64 (signBit neg + 2047 * 2 ^ 52)

/-- The exponent of the unit in the last place of the binary64 values around `num / den * 2^e`. -/
def ulpExponent (num den : Nat) (e : Int) : Int :=
  let k : Int := (num.log2 : Int) - (den.log2 : Int)
  let floorLog := if den * 2 ^ k.toNat ≤ num * 2 ^ (-k).toNat then k else k - 1
  max (e + floorLog - 52) (-1074)

/-- `num / den * 2^e` in units of `2^t`, rounded to nearest, ties to even. -/
def roundToUnit (num den : Nat) (e t : Int) : Nat :=
  let n := num * 2 ^ (e - t).toNat
  let d := den * 2 ^ (t - e).toNat
  let q := n / d
  let r := n % d
  if d < 2 * r ∨ (2 * r = d ∧ q % 2 = 1) then q + 1 else q

/-- The binary64 value nearest to `(-1)^neg * num / den * 2^e`, ties to even; an infinity where the rounded magnitude
passes the largest finite value (R11). -/
def roundF64 (neg : Bool) (num den : Nat) (e : Int) : F64 :=
  if num = 0 then BitVec.ofNat 64 (signBit neg)
  else
    let t := ulpExponent num den e
    let magnitude := (t + 1074).toNat * 2 ^ 52 + roundToUnit num den e t
    if 2047 * 2 ^ 52 ≤ magnitude then infF64 neg
    else BitVec.ofNat 64 (signBit neg + magnitude)

/-- The integer `(-1)^neg * m * 2^k`. -/
def signedShift (neg : Bool) (m k : Nat) : Int :=
  if neg then -((m * 2 ^ k : Nat) : Int) else ((m * 2 ^ k : Nat) : Int)

/-- `fadd` (R11). An exact zero sum is -0 only where both operands are negative zeros. -/
def fadd (x y : F64) : F64 :=
  match unpackF64 x, unpackF64 y with
  | .nan, _ => nanF64
  | _, .nan => nanF64
  | .inf s, .inf s' => if s = s' then infF64 s else nanF64
  | .inf s, .finite _ _ _ => infF64 s
  | .finite _ _ _, .inf s => infF64 s
  | .finite s m e, .finite s' m' e' =>
    let low := min e e'
    let sum := signedShift s m (e - low).toNat + signedShift s' m' (e' - low).toNat
    if sum = 0 then roundF64 (s && s') 0 1 low
    else roundF64 (decide (sum < 0)) sum.natAbs 1 low

/-- `fmul` (R11). -/
def fmul (x y : F64) : F64 :=
  match unpackF64 x, unpackF64 y with
  | .nan, _ => nanF64
  | _, .nan => nanF64
  | .inf s, .inf s' => infF64 (s ^^ s')
  | .inf s, .finite s' m _ => if m = 0 then nanF64 else infF64 (s ^^ s')
  | .finite s m _, .inf s' => if m = 0 then nanF64 else infF64 (s ^^ s')
  | .finite s m e, .finite s' m' e' => roundF64 (s ^^ s') (m * m') 1 (e + e')

/-- `fdiv` (R11). -/
def fdiv (x y : F64) : F64 :=
  match unpackF64 x, unpackF64 y with
  | .nan, _ => nanF64
  | _, .nan => nanF64
  | .inf _, .inf _ => nanF64
  | .inf s, .finite s' _ _ => infF64 (s ^^ s')
  | .finite s _ _, .inf s' => roundF64 (s ^^ s') 0 1 0
  | .finite s m e, .finite s' m' e' =>
    if m' = 0 then (if m = 0 then nanF64 else infF64 (s ^^ s'))
    else roundF64 (s ^^ s') m m' (e - e')

/-- `f64(n)`: the binary64 value nearest to the natural number n (R11). -/
def f64OfNat (n : Nat) : F64 := roundF64 false n 1 0

/-- `is_finite` (R11). -/
def isFinite (x : F64) : Bool :=
  match unpackF64 x with
  | .nan => false
  | .inf _ => false
  | .finite _ _ _ => true

/-- `trunc`: the integer part of a finite value, rounded toward zero; none where the value is not finite (R11). -/
def truncF64 (x : F64) : Option Int :=
  match unpackF64 x with
  | .nan => none
  | .inf _ => none
  | .finite neg m e =>
    let mag : Nat := m * 2 ^ e.toNat / 2 ^ (-e).toNat
    some (if neg then -(mag : Int) else (mag : Int))

end Sys2Proof.Machine
end

