-- ==== Sys2Proof/Machine/State.lean ====
section
/-! DEFINITION. The state of the block (R20), the inputs a step reads (R12, R51, R71) and the response a command
returns (R78). -/

namespace Sys2Proof.Machine

/-- The reasons this machine stops without a next state: there are none. A fault of the block is a state it goes on
from: FAULT holds the code and the block keeps answering (R224, R225), so fault entry is a next state (log 15). -/
inductive Fault where
deriving DecidableEq, Repr

/-- The reasons for which there is no meaning. -/
inductive Refusal where
  /-- an instruction without a meaning yet; raised by `exec`'s refused arms alone (none is left); safe -/
  | notModelled (mnemonic : String)
  /-- a configuration that is not well formed "is refused when the model is built, and there is no run of it" (R28);
  raised by `State.boot`, by no step and no command; safe -/
  | illFormedConfig
  /-- "A record of the wrong length cannot be presented" (R71); raised by `State.submit`, by no step and no command;
  safe -/
  | recordLength
deriving DecidableEq, Repr

/-- The values of the FAULT register (R221). Codes 7..15 are never raised and have no constructor. -/
inductive FaultCode where
  /-- 0, NONE -/
  | noFault
  /-- 1, ILLEGAL_CMD -/
  | illegalCmd
  /-- 2, BAD_CHANNEL -/
  | badChannel
  /-- 3, CACHE_FULL -/
  | cacheFull
  /-- 4, TRACE_BOUNDS -/
  | traceBounds
  /-- 5, FREQ_INVALID -/
  | freqInvalid
  /-- 6, ERR_OVERFLOW -/
  | errOverflow
deriving DecidableEq, Repr

/-- RS (R78). Value 3 is never returned and has no constructor. -/
inductive ResponseStatus where
  /-- 0 -/
  | ok
  /-- 1, this command raised a fault -/
  | fault
  /-- 2, the command was not run because the block was already faulted -/
  | faulted
deriving DecidableEq, Repr

/-- The response record (R78). -/
structure Response where
  rs : ResponseStatus
  w0 : Word32
  w1 : Word32
  w2 : Word32
  pay : List Byte
deriving DecidableEq, Repr

/-- The env input of a step (R12, R51): the samples of the discriminator trace as the command reads them, index 0
first (R62, log 6). TRACE_LEN is the length of the list. -/
structure Env where
  trace : List F64
deriving DecidableEq, Repr

/-- The draws input of a step (R12): the free choices of rules R115 and R132. -/
structure Draws where
  /-- RESYNC's r, in 0..8 (R115) -/
  hop : HopIndex
  /-- READ's VALUE for an absent entry, any s32 (R132) -/
  readValue : Word32
deriving DecidableEq, Repr

/-- One thing the host does to the block: issue a command with its env and draws (R12), or reset it (R250). -/
inductive Event where
  | command (record : CommandRecord) (env : Env) (draws : Draws)
  | reset
deriving DecidableEq, Repr

/-- The state. The seven fields from `hopIdx` to `fault` are the state elements of R20, and the block has no other. The
other fields are the model's own: `Host.Core` steps a state alone, so what the spec passes beside it stands in it
(log 1). -/
structure State where
  /-- the configuration, a parameter of the step that no command changes (R6, R20) -/
  cfg : Config
  /-- HOP_IDX (R21) -/
  hopIdx : HopIndex
  /-- CUR_ERR, an s32 (R22) -/
  curErr : Word32
  /-- LUT_VALID[8:0], bit k for channel k (R23) -/
  lutValid : BitVec 9
  /-- LUT_VAL[0..8], each an s32 (R24) -/
  lutVal : Vector Word32 9
  /-- CACHE: the keys seen in this batch, oldest first (R26; the order is the model's, log 19) -/
  cache : List (List Byte)
  /-- CACHE_COUNT, len(CACHE) where that is a u32 (R20; log 5) -/
  cacheCount : Word32
  /-- FAULT (R27) -/
  fault : FaultCode
  /-- the host's commands and resets that are still to come, the next one first (R12, R30, R61) -/
  input : List Event
  /-- the env input presented with the current command -/
  env : Env
  /-- the draws presented with the current command -/
  draws : Draws
  /-- the response of the last command, none before the first (R78, log 10) -/
  resp : Option Response
deriving DecidableEq, Repr

/-- The block of configuration `c` right after reset, with nothing submitted to it (R251). LUT_VAL is unspecified at
reset and unobservable while LUT_VALID is 0 (R24); the model holds 0 (log 4). The env is empty (log 13). -/
def State.resetWith (c : Config) : State where
  cfg := c
  hopIdx := 0
  curErr := 0
  lutValid := 0
  lutVal := Vector.replicate 9 0
  cache := []
  cacheCount := 0
  fault := .noFault
  input := []
  env := { trace := [] }
  draws := { hop := Config.openHopDraw, readValue := Config.openReadDraw }
  resp := none

/-- The block right after reset, its OPEN configuration values unknown. -/
def State.reset : State := State.resetWith Config.build

end Sys2Proof.Machine
end

