-- ==== Sys2Proof/Machine/Operands.lean ====
section
/-! DEFINITION. Operand assembly (R73, R75): every operand form a command has. PKT is assembled by `packetBytes`
(`Decode.lean`). No operand is scaled or shifted. -/

namespace Sys2Proof.Machine

/-- CH as a channel index; none for 9..15 (R73). -/
def channelOperand (ch : BitVec 4) : Option Channel :=
  if h : ch.toNat < 9 then some ⟨ch.toNat, h⟩ else none

/-- `delta = sext_32(DELTA)`, an Int in -2^31..2^31-1 (R75). -/
def deltaOperand (delta : Word32) : Int := delta.toInt

/-- `sidx = zext_32(SIDX)`, a natural number (R75). -/
def sampleIndexOperand (sidx : Word32) : Nat := sidx.toNat

end Sys2Proof.Machine
end

