-- ==== Sys2Proof/Machine/Flags.lean ====
section
/-! DEFINITION. The flags of the block: the valid bits LUT_VALID and the FAULT code (R31), the width test that takes the
place of a carry or overflow flag (R9), and the codes of the response status. -/

namespace Sys2Proof.Machine

/-- The code FAULT holds (R221). -/
def FaultCode.bits : FaultCode → BitVec 4
  | .noFault => 0
  | .illegalCmd => 1
  | .badChannel => 2
  | .cacheFull => 3
  | .traceBounds => 4
  | .freqInvalid => 5
  | .errOverflow => 6

/-- The code of RS (R78). -/
def ResponseStatus.bits : ResponseStatus → BitVec 2
  | .ok => 0
  | .fault => 1
  | .faulted => 2

/-- LUT_VALID[k] (R23). -/
def lutValidBit (v : BitVec 9) (k : Channel) : Bool := v.getLsbD k.val

/-- LUT_VALID with bit k set (R133). -/
def setLutValid (v : BitVec 9) (k : Channel) : BitVec 9 := v ||| BitVec.twoPow 9 k.val

/-- `fits_s32(v)` (R9). -/
def fitsS32 (v : Int) : Bool := decide (-2147483648 ≤ v) && decide (v ≤ 2147483647)

end Sys2Proof.Machine
end

