-- ==== Sys2Proof/Machine/Message.lean ====
section
/-! DEFINITION. The packet frame parser and the sensor-code enumeration (`44_message.md`, R180 to R186). -/

namespace Sys2Proof.Machine

/-- The sensor type: the nine named codes and an explicit unrecognised case that carries the raw code (R182, R183). -/
inductive Sensor where
  | superCapVoltage
  | uvIndex
  | rainRate
  | solarRadiation
  | light
  | temperature
  | windGustSpeed
  | humidity
  | rain
  | unknown (code : BitVec 4)
deriving DecidableEq, Repr

/-- The message of an accepted packet (R181). -/
structure Message where
  id : BitVec 4
  sensor : Sensor
  windSpeed : Byte
  windDir : Byte
  sidx : Word32
  payload : List Byte
deriving DecidableEq, Repr

/-- The sensor of a 4-bit code (R182). -/
def sensorOfCode (c : BitVec 4) : Sensor :=
  match c.toNat with
  | 2 => .superCapVoltage
  | 4 => .uvIndex
  | 5 => .rainRate
  | 6 => .solarRadiation
  | 7 => .light
  | 8 => .temperature
  | 9 => .windGustSpeed
  | 10 => .humidity
  | 14 => .rain
  | _ => .unknown c

/-- SENSOR: the 4-bit code of a sensor (R182). -/
def sensorCode : Sensor → BitVec 4
  | .superCapVoltage => 0x2
  | .uvIndex => 0x4
  | .rainRate => 0x5
  | .solarRadiation => 0x6
  | .light => 0x7
  | .temperature => 0x8
  | .windGustSpeed => 0x9
  | .humidity => 0xA
  | .rain => 0xE
  | .unknown c => c

/-- KNOWN: the code is in the enumeration (R182, R183). -/
def sensorKnown : Sensor → Bool
  | .superCapVoltage => true
  | .uvIndex => true
  | .rainRate => true
  | .solarRadiation => true
  | .light => true
  | .temperature => true
  | .windGustSpeed => true
  | .humidity => true
  | .rain => true
  | .unknown _ => false

/-- `hex(c)`: the one uppercase hexadecimal digit of a code (R184). -/
def hexDigit (c : BitVec 4) : String :=
  ["0", "1", "2", "3", "4", "5", "6", "7", "8", "9", "A", "B", "C", "D", "E", "F"].getD c.toNat ""

/-- The name the consumer renders, outside the block (R184). -/
def sensorName : Sensor → String
  | .superCapVoltage => "SuperCapVoltage"
  | .uvIndex => "UVIndex"
  | .rainRate => "RainRate"
  | .solarRadiation => "SolarRadiation"
  | .light => "Light"
  | .temperature => "Temperature"
  | .windGustSpeed => "WindGustSpeed"
  | .humidity => "Humidity"
  | .rain => "Rain"
  | .unknown c => "Unknown(0x" ++ hexDigit c ++ ")"

/-- FRAME(B, sidx): the message of a normalized packet (R180). B has at least 5 bytes, so P[0], P[1] and P[2] exist
(R186). The fields are read the same way for every sensor (R185). -/
def frame (b : List Byte) (sidx : Word32) : Message :=
  let p := b.drop prefixLen
  { id := (pktByte p 0).extractLsb' 0 4
    sensor := sensorOfCode ((pktByte p 0).extractLsb' 4 4)
    windSpeed := pktByte p 1
    windDir := pktByte p 2
    sidx := sidx
    payload := p }

end Sys2Proof.Machine
end

