-- ==== Sys2Proof/Machine/Respond.lean ====
section
/-! DEFINITION. The response layouts (R78 to R87). Every position a layout does not name is 0 (R80). -/

namespace Sys2Proof.Machine

/-- The hop descriptor: channel index, carrier frequency, frequency error (R111, decision D38). -/
structure Descriptor where
  channel : Channel
  freq : Word32
  err : Word32
deriving DecidableEq, Repr

/-- ADVANCE and RESYNC (R79). -/
def descriptorResponse (d : Descriptor) : Response where
  rs := .ok
  w0 := (0#28) ++ BitVec.ofNat 4 d.channel.val
  w1 := d.freq
  w2 := d.err
  pay := []

/-- READ (R81). -/
def readResponse (present : Bool) (value : Word32) : Response where
  rs := .ok
  w0 := (0#31) ++ BitVec.ofBool present
  w1 := value
  w2 := 0
  pay := []

/-- UPDATE and BATCH (R82). -/
def okResponse : Response where
  rs := .ok
  w0 := 0
  w1 := 0
  w2 := 0
  pay := []

/-- DWELL (R83). -/
def dwellResponse (dwellUs : Nat) : Response where
  rs := .ok
  w0 := BitVec.ofNat 32 dwellUs
  w1 := 0
  w2 := 0
  pay := []

/-- PACKET with ACCEPT = 0: nothing says why the packet was dropped (R84). -/
def droppedResponse : Response where
  rs := .ok
  w0 := 0
  w1 := 0
  w2 := 0
  pay := []

/-- PACKET with ACCEPT = 1 (R84): WIND_DIR, WIND_SPEED, three zeros, KNOWN, SENSOR, ID, three zeros, ACCEPT. -/
def messageResponse (m : Message) : Response where
  rs := .ok
  w0 := m.windDir ++ m.windSpeed ++ (0#3) ++ BitVec.ofBool (sensorKnown m.sensor) ++ sensorCode m.sensor ++ m.id
    ++ (0#3) ++ (1#1)
  w1 := m.sidx
  w2 := 0
  pay := m.payload

/-- STATUS (R85). -/
def statusResponse (s : State) : Response where
  rs := .ok
  w0 := (0#7) ++ s.lutValid ++ (0#8) ++ s.fault.bits ++ BitVec.ofNat 4 s.hopIdx.val
  w1 := s.curErr
  w2 := s.cacheCount
  pay := []

/-- A command that raised `code` (R86). -/
def faultResponse (code : FaultCode) : Response where
  rs := .fault
  w0 := (0#28) ++ code.bits
  w1 := 0
  w2 := 0
  pay := []

/-- A command refused because FAULT holds `code` (R87). -/
def faultedResponse (code : FaultCode) : Response where
  rs := .faulted
  w0 := (0#28) ++ code.bits
  w1 := 0
  w2 := 0
  pay := []

end Sys2Proof.Machine
end

