-- ==== Sys2Proof/Machine/Ops.lean ====
section
/-! DEFINITION. The named operations over the state: the writes of its elements, fault entry (R224), the answer of a
faulted block (R225), the run of a command (R12, R223) and reset (R250), which is the return from a fault (R227). -/

namespace Sys2Proof.Machine

/-! ### Writes of single elements (R20) -/

def State.setHopIdx (s : State) (i : HopIndex) : State := { s with hopIdx := i }

def State.setCurErr (s : State) (v : Word32) : State := { s with curErr := v }

/-- A LUT entry is one valid bit and an s32, written together (R57, R133). -/
def State.writeLut (s : State) (k : Channel) (v : Word32) : State :=
  { s with lutVal := s.lutVal.set k.val v, lutValid := setLutValid s.lutValid k }

/-- CACHE_COUNT as the number that is held against DEDUP_DEPTH (R152): the register while len(CACHE) is a u32, and
len(CACHE) itself, which CACHE_COUNT is to equal (R20, R26), where it is none (log 5). -/
def State.cacheSize (s : State) : Nat :=
  if s.cache.length < 4294967296 then s.cacheCount.toNat else s.cache.length

/-- `CACHE_COUNT + 1` (R152); a free value where len(CACHE) + 1 is no u32 (log 5). -/
def State.countAfterInsertion (s : State) : Word32 :=
  if s.cache.length + 1 < 4294967296 then s.cacheCount + 1 else Config.openCacheCount (s.cache.length + 1)

/-- `CACHE <- CACHE + {B}; CACHE_COUNT <- CACHE_COUNT + 1` (R152). -/
def State.insertKey (s : State) (b : List Byte) : State :=
  { s with cache := s.cache ++ [b], cacheCount := s.countAfterInsertion }

/-- `CACHE <- {}; CACHE_COUNT <- 0` (R151). -/
def State.clearCache (s : State) : State := { s with cache := [], cacheCount := 0 }

/-- The response a command returns (R80). -/
def State.respond (s : State) (r : Response) : State := { s with resp := some r }

/-- The command at the head of the input is taken and its env and draws are presented (R12). -/
def State.present (s : State) (rest : List Event) (env : Env) (draws : Draws) : State :=
  { s with input := rest, env := env, draws := draws }

/-! ### Faults -/

/-- `raise Fault(code)` on the state from before the command: every write of the command is discarded, FAULT takes the
code and the response reports it (R224). -/
def State.raiseFault (s : State) (code : FaultCode) : State :=
  { s with fault := code, resp := some (faultResponse code) }

/-- A command of a faulted block is not run and changes no state; the response carries the held code (R225, R87). -/
def State.answerFaulted (s : State) : State := s.respond (faultedResponse s.fault)

/-- What a command's own steps come to: a fault, or the state they leave and the response they give. -/
abbrev Effect := Except FaultCode (State × Response)

/-- The end of a command that ran (R223, R224). -/
def State.finish (s : State) : Effect → State
  | .error code => s.raiseFault code
  | .ok (t, r) => t.respond r

/-- A command other than STATUS: run only while FAULT = 0 (R76 verdict 1, R225). -/
def State.runCommand (s : State) (effect : Effect) : State :=
  if s.fault = .noFault then s.finish effect else s.answerFaulted

/-- An illegal command word (R76 verdicts 1 and 2). -/
def State.illegalWord (s : State) : State := s.runCommand (.error .illegalCmd)

/-- Reset: every state element takes its reset value; the configuration stays (R250, R251, R252). The response of an
earlier command is gone; the host's later events stay (log 9). LUT_VAL takes the model's own value (log 4). -/
def State.resetBlock (s : State) : State :=
  { s with
    hopIdx := 0
    curErr := 0
    lutValid := 0
    lutVal := Vector.replicate 9 0
    cache := []
    cacheCount := 0
    fault := .noFault
    resp := none }

/-! ### What the host does before a run (R28, R71) -/

/-- Building the block: "An ill-formed configuration is refused when the model is built, and there is no run of it"
(R28; I18 of `93_implementation_defined.md`). No command and no step reaches this refusal. -/
def State.boot (c : Config) : Host.Outcome State Fault Refusal :=
  if c.wf then .next (State.resetWith c) else .refused .illFormedConfig

/-- The host appends an event to its command stream. A PACKET record of the wrong length cannot be presented (R71). -/
def State.submit (s : State) (e : Event) : Host.Outcome State Fault Refusal :=
  match e with
  | .reset => .next { s with input := s.input ++ [e] }
  | .command r _ _ =>
    if opcField r.cw = 6 ∧ r.pkt.length ≠ s.cfg.pktLen then .refused .recordLength
    else .next { s with input := s.input ++ [e] }

end Sys2Proof.Machine
end

