-- ==== Sys2Proof/Machine/FreqTracker.lean ====
section
/-! DEFINITION. The frequency-error tracker (`42_freq_tracker.md`): READ, UPDATE, TRACK_UPDATE, FREQ_EST and
MEASURE. -/

namespace Sys2Proof.Machine

/-- READ of a channel index: VALUE is the entry where there is one and the step's draw where there is none
(R131, R132). -/
def readEntry (s : State) (k : Channel) : Response :=
  if lutValidBit s.lutValid k then readResponse true s.lutVal[k]
  else readResponse false s.draws.readValue

/-- READ (R131); a channel of 9..15 raises BAD_CHANNEL (R73). -/
def execRead (ch : BitVec 4) (s : State) : Host.Outcome State Fault Refusal :=
  .next (s.runCommand
    (match channelOperand ch with
     | none => .error .badChannel
     | some k => .ok (s, readEntry s k)))

/-- TRACK_UPDATE(ch, delta): the exact sum, a fault where it leaves s32, and else the running error and the entry
both take it (R133). -/
def trackUpdate (k : Channel) (delta : Int) (s : State) : Except FaultCode State :=
  let sum := s.curErr.toInt + delta
  if fitsS32 sum then .ok ((s.setCurErr (BitVec.ofInt 32 sum)).writeLut k (BitVec.ofInt 32 sum))
  else .error .errOverflow

/-- UPDATE (R134); a channel of 9..15 raises BAD_CHANNEL (R73). -/
def execUpdate (ch : BitVec 4) (delta : Word32) (s : State) : Host.Outcome State Fault Refusal :=
  .next (s.runCommand
    (match channelOperand ch with
     | none => .error .badChannel
     | some k =>
       match trackUpdate k (deltaOperand delta) s with
       | .error code => .error code
       | .ok t => .ok (t, okResponse)))

/-- TWO_PI, the binary64 value nearest to 2π (R140). PRESUMED: R140 marks the pattern as general knowledge (log 17). -/
def twoPi : F64 := 0x401921FB54442D18#64

/-- `y` of the reference evaluation: 9600 plus the window's mean frequency in Hz (R140). -/
def windowFrequency (sampleRate : Nat) (xs : List F64) : F64 :=
  let acc := xs.foldl fadd 0#64
  let mean := fdiv acc (f64OfNat xs.length)
  let hz := fdiv (fmul mean (f64OfNat sampleRate)) twoPi
  fadd (f64OfNat nominalDeviation) hz

/-- FREQ_EST_ref (R140, R142). -/
def freqEstRef (sampleRate : Nat) (xs : List F64) : Option Int :=
  match truncF64 (windowFrequency sampleRate xs) with
  | none => none
  | some v => if fitsS32 (-v) then some (-v) else none

/-- FREQ_EST of a configuration (R6, R140). -/
def freqEstOf (c : Config) (xs : List F64) : Option Int :=
  match c.freqEst with
  | .reference => freqEstRef c.sampleRate xs
  | .other k => Config.otherFreqEst k xs

/-- `[TraceRead(i) for i in lo .. hi-1]` (R52, R141). -/
def traceWindow (trace : List F64) (lo hi : Nat) : List F64 := (trace.drop lo).take (hi - lo)

/-- MEASURE(sidx) (R141, R142): the window is half-open and its bounds are exact natural numbers. -/
def measureError (c : Config) (env : Env) (sidx : Nat) : Except FaultCode Int :=
  let lo := sidx + windowFirst * c.symbolLen
  let hi := sidx + windowEnd * c.symbolLen
  if env.trace.length < hi then .error .traceBounds
  else
    match freqEstOf c (traceWindow env.trace lo hi) with
    | none => .error .freqInvalid
    | some e => .ok e

end Sys2Proof.Machine
end

