-- ==== Sys2Proof/Machine/HopSequencer.lean ====
section
/-! DEFINITION. The hop sequencer (`41_hop_sequencer.md`): DESCRIBE, ADVANCE, RESYNC and DWELL. -/

namespace Sys2Proof.Machine

/-- The channel in use, `HOP_PATTERN[HOP_IDX]` (glossary, R111, R159). -/
def State.currentChannel (s : State) : Channel := s.cfg.hopPattern[s.hopIdx]

/-- DESCRIBE: the state it leaves and the descriptor it returns (R111). -/
def describe (s : State) : State × Descriptor :=
  let ch := s.currentChannel
  let t := if lutValidBit s.lutValid ch then s.setCurErr s.lutVal[ch] else s
  (t, { channel := ch, freq := s.cfg.channelTable[ch], err := t.curErr })

/-- `(HOP_IDX + 1) mod 9` (R112). -/
def nextHop (i : HopIndex) : HopIndex := ⟨(i.val + 1) % 9, Nat.mod_lt _ (by decide)⟩

/-- The end of both hop commands: DESCRIBE at the new index and answer its descriptor (R112, R114). -/
def hopTo (s : State) (i : HopIndex) : Effect :=
  let d := describe (s.setHopIdx i)
  .ok (d.1, descriptorResponse d.2)

/-- ADVANCE (R112). -/
def execAdvance (s : State) : Host.Outcome State Fault Refusal :=
  .next (s.runCommand (hopTo s (nextHop s.hopIdx)))

/-- RESYNC: the draw r is the step's free input (R114, R115). -/
def execResync (s : State) : Host.Outcome State Fault Refusal :=
  .next (s.runCommand (hopTo s s.draws.hop))

/-- DWELL_US, an exact integer of microseconds (R116). -/
def dwellUs (c : Config) : Nat := dwellBase + c.cfgId * dwellStep

/-- DWELL (R116). -/
def execDwell (s : State) : Host.Outcome State Fault Refusal :=
  .next (s.runCommand (.ok (s, dwellResponse (dwellUs s.cfg))))

end Sys2Proof.Machine
end

