-- ==== Sys2Proof/Machine/BitOrder.lean ====
section
/-! DEFINITION. The bit-order reversal unit (`40_bit_order.md`, R100 to R103). -/

namespace Sys2Proof.Machine

/-- REV8 in the form of R101: a nibble swap, a pair swap and a single-bit swap. R100, `REV8(b)[i] = b[7 - i]`, is the
normative form; `Obligations.Rev8MirrorsTheBitsOfAByte` states that the two agree on every byte. -/
def rev8 (b : Byte) : Byte :=
  let t1 := ((b &&& 0xF0#8) >>> 4) ||| ((b &&& 0x0F#8) <<< 4)
  let t2 := ((t1 &&& 0xCC#8) >>> 2) ||| ((t1 &&& 0x33#8) <<< 2)
  ((t2 &&& 0xAA#8) >>> 1) ||| ((t2 &&& 0x55#8) <<< 1)

/-- REVPKT of the packet operand: each of its PKT_LEN bytes reversed, their order kept (R103, R153). -/
def revPkt (pktLen : Nat) (pkt : List Byte) : List Byte := (packetBytes pktLen pkt).map rev8

end Sys2Proof.Machine
end

