-- ==== Sys2Proof/Machine/PacketDecoder.lean ====
section
/-! DEFINITION. The packet pipeline (`43_packet_decoder.md`): BATCH and PACKET, the duplicate cache and the checksum
gate. -/

namespace Sys2Proof.Machine

/-- BATCH (R151). -/
def execBatch (s : State) : Host.Outcome State Fault Refusal :=
  .next (s.runCommand (.ok (s.clearCache, okResponse)))

/-- CK_EX: the XOR of all bytes (`95_test_vectors.md` section 0). -/
def xorBytes (bytes : List Byte) : Byte := bytes.foldl (· ^^^ ·) 0

/-- CHECKSUM_FN of a configuration (R6, R158). -/
def checksumOf (c : Config) (bytes : List Byte) : Nat :=
  match c.checksumFn with
  | .external k => Config.externalChecksum k bytes
  | .illustrativeXor => (xorBytes bytes).toNat

/-- The checksum gate: the remainder over the bytes after the prefix is 0 (R157). -/
def checksumPasses (c : Config) (b : List Byte) : Bool := checksumOf c (b.drop prefixLen) == 0

/-- Steps 4 to 6 of PACKET on a packet that passed the gate (R152, R159, R160). -/
def acceptPacket (b : List Byte) (sidx : Word32) (s : State) : Effect :=
  match measureError s.cfg s.env (sampleIndexOperand sidx) with
  | .error code => .error code
  | .ok e =>
    match trackUpdate s.currentChannel e s with
    | .error code => .error code
    | .ok t => .ok (t, messageResponse (frame b sidx))

/-- Steps 2 to 6 of PACKET on the normalized packet `b` (R152). -/
def decodePacket (b : List Byte) (sidx : Word32) (s : State) : Effect :=
  if b ∈ s.cache then .ok (s, droppedResponse)
  else if s.cacheSize = s.cfg.dedupDepth then .error .cacheFull
  else if checksumPasses s.cfg b then acceptPacket b sidx (s.insertKey b)
  else .ok (s.insertKey b, droppedResponse)

/-- PACKET (R152). -/
def execPacket (pkt : List Byte) (sidx : Word32) (s : State) : Host.Outcome State Fault Refusal :=
  .next (s.runCommand (decodePacket (revPkt s.cfg.pktLen pkt) sidx s))

end Sys2Proof.Machine
end

