-- ==== Sys2Proof/Machine/Status.lean ====
section
/-! DEFINITION. The STATUS readback (`45_status.md`). -/

namespace Sys2Proof.Machine

/-- STATUS: the one command that runs while FAULT is not 0 (R200, R225). -/
def execStatus (s : State) : Host.Outcome State Fault Refusal :=
  .next (s.respond (statusResponse s))

end Sys2Proof.Machine
end

