-- ==== Sys2Proof/Machine/Dispatch.lean ====
section
/-! DEFINITION. One arm per command of `spec/opcode_table.json`. -/

namespace Sys2Proof.Machine

/-- The meaning of each command. -/
def exec (i : Instr) (s : State) : Host.Outcome State Fault Refusal :=
  match i with
  | .advance => Sys2Proof.Machine.execAdvance s
  | .resync => Sys2Proof.Machine.execResync s
  | .read ch => Sys2Proof.Machine.execRead ch s
  | .update ch delta => Sys2Proof.Machine.execUpdate ch delta s
  | .batch => Sys2Proof.Machine.execBatch s
  | .packet pkt sidx => Sys2Proof.Machine.execPacket pkt sidx s
  | .dwell => Sys2Proof.Machine.execDwell s
  | .status => Sys2Proof.Machine.execStatus s

end Sys2Proof.Machine
end

