-- ==== Sys2Proof/Machine/Step.lean ====
section
/-! DEFINITION. One step: the host's next event, taken whole (R12, R61, R250). -/

namespace Sys2Proof.Machine

/-- A step. With no event to come the block is idle and holds its state (R234, R253; log 10). A command is decoded
and run to its end (R12, R76); a reset is a step of its own (R250). -/
def step (s : State) : Host.Outcome State Fault Refusal :=
  match s.input with
  | [] => .next s
  | .reset :: rest => .next { s with input := rest }.resetBlock
  | .command record env draws :: rest =>
    match decode s.cfg.pktLen record with
    | .command i => exec i (s.present rest env draws)
    | .illegal _ => .next (s.present rest env draws).illegalWord

/-- The state with the instruction whose bits are `w` as the host's next command, under the env and draws the state
presents now (log 8). -/
def State.withFetchWord (s : State) (nbits w : Nat) : State :=
  { s with input := .command (recordOfBits s.cfg.pktLen nbits w) s.env s.draws :: s.input }

end Sys2Proof.Machine
end

