-- ==== Sys2Proof/WellFormed.lean ====
section
/-! DEFINITION. Which command terms are legal commands: the packet record has its size (R71) and the channel operand
is a channel index (R73). -/

namespace Sys2Proof

namespace Instr

/-- The packet record is PKT_LEN bytes: "A record of the wrong length cannot be presented" (R71). -/
def recordFits (pktLen : Nat) : Instr → Bool
  | .packet pkt _ => decide (pkt.length = pktLen)
  | .advance => true
  | .resync => true
  | .read _ => true
  | .update _ _ => true
  | .batch => true
  | .dwell => true
  | .status => true

/-- The channel operand is in 0..8 (R73). -/
def channelLegal : Instr → Bool
  | .read ch => decide (ch.toNat < 9)
  | .update ch _ => decide (ch.toNat < 9)
  | .advance => true
  | .resync => true
  | .batch => true
  | .packet _ _ => true
  | .dwell => true
  | .status => true

/-- A legal command of a block whose packets have `pktLen` bytes. -/
def wellFormed (pktLen : Nat) (i : Instr) : Bool :=
  recordFits pktLen i && channelLegal i

end Instr

end Sys2Proof
end

