-- ==== Sys2Proof/Machine/Script.lean ====
section
/-! DEFINITION. Command scripts (R88), as lines already read: how the host's commands come to stand in `State.input`. -/

namespace Sys2Proof.Machine

/-- `<rule>` of a `.trace` directive: every sample is x, or `[i..j) = x` ranges (R88). -/
inductive TraceRule where
  | fill (x : F64)
  | ranges (rs : List (Nat × Nat × F64))
deriving DecidableEq, Repr

/-- One line of a script: a command, with the draws its step is given, or the directive `.trace <len>, <rule>`, which
is no command. -/
inductive ScriptLine where
  | command (i : Instr) (draws : Draws)
  | trace (len : Nat) (rule : TraceRule)
deriving DecidableEq, Repr

/-- The sample a rule fixes at an index. Ranges fix it where exactly one of them holds the index (log 11). -/
def sampleOfRule (rule : TraceRule) (idx : Nat) : Option F64 :=
  match rule with
  | .fill x => some x
  | .ranges rs =>
    match rs.filter (fun r => decide (r.1 ≤ idx) && decide (idx < r.2.1)) with
    | [r] => some r.2.2
    | _ => none

/-- The samples `idx .. idx+n-1` of a rule. -/
def samplesOfRule (rule : TraceRule) : (idx n : Nat) → Option (List F64)
  | _, 0 => some []
  | idx, n + 1 =>
    match sampleOfRule rule idx, samplesOfRule rule (idx + 1) n with
    | some x, some xs => some (x :: xs)
    | _, _ => none

/-- The events of a script. A `.trace` line fixes the env of the commands after it, until the next one; a mnemonic
assembles to the command word of R77 and its operand record. None where a line names no legal command of a block with
`pktLen`-byte packets or fixes no trace. -/
def assemble (pktLen : Nat) : (env : Env) → List ScriptLine → Option (List Event)
  | _, [] => some []
  | _, .trace len rule :: rest =>
    match samplesOfRule rule 0 len with
    | some xs => assemble pktLen { trace := xs } rest
    | none => none
  | env, .command i draws :: rest =>
    if i.wellFormed pktLen then
      match assemble pktLen env rest with
      | some events => some (.command (encode i) env draws :: events)
      | none => none
    else none

end Sys2Proof.Machine
end

