-- ==== Sys2Proof/Safety.lean ====
section
/-! DEFINITION. The terms in which claims about the block are stated: a running block, the outcomes of one command, the
invariant of its runs, what its host can observe, runs of several commands, and the batch function of the source. -/

namespace Sys2Proof.Machine

/-- The block is running: FAULT = 0 (R27). -/
abbrev State.running (s : State) : Prop := s.fault = .noFault

/-- A command raises `code`: the next state differs from the state before it in FAULT and in the response, which is
RS = FAULT with the code in W0[3:0] and every other bit 0 (R224, R86). -/
def raises (i : Instr) (s : State) (code : FaultCode) : Prop :=
  exec i s = .next { s with
    fault := code
    resp := some { rs := .fault, w0 := (0#28) ++ code.bits, w1 := 0, w2 := 0, pay := [] } }

/-- A command is not run: nothing changes but the response, which is RS = FAULTED with the held code in W0[3:0] and every
other bit 0 (R225, R87). -/
def answersFaulted (i : Instr) (s : State) : Prop :=
  exec i s = .next { s with
    resp := some { rs := .faulted, w0 := (0#28) ++ s.fault.bits, w1 := 0, w2 := 0, pay := [] } }

/-- The invariant of the block: the configuration is well formed (R28), and CACHE is a set of at most DEDUP_DEPTH keys of
PKT_LEN bytes whose size is CACHE_COUNT (R20, R26) where it is a u32 (log 5). -/
structure State.Inv (s : State) : Prop where
  config_wf : s.cfg.wf = true
  count_eq_length : s.cache.length < 4294967296 → s.cacheCount.toNat = s.cache.length
  within_depth : s.cache.length ≤ s.cfg.dedupDepth
  no_repeats : s.cache.Nodup
  key_length : ∀ b ∈ s.cache, b.length = s.cfg.pktLen

/-- Two states the host cannot tell apart: they agree on everything but the value of LUT entries whose valid bit is 0
(R24) and the order of the keys in CACHE (R26). -/
structure State.SameToHost (s t : State) : Prop where
  cfg_eq : s.cfg = t.cfg
  hop_eq : s.hopIdx = t.hopIdx
  err_eq : s.curErr = t.curErr
  valid_eq : s.lutValid = t.lutValid
  val_eq : ∀ k : Channel, lutValidBit s.lutValid k = true → s.lutVal[k] = t.lutVal[k]
  cache_perm : s.cache.Perm t.cache
  count_eq : s.cacheCount = t.cacheCount
  fault_eq : s.fault = t.fault
  input_eq : s.input = t.input
  env_eq : s.env = t.env
  draws_eq : s.draws = t.draws
  resp_eq : s.resp = t.resp

/-- The delta an UPDATE adds; none for every other command. -/
def updateDelta : Instr → Option Int
  | .update _ delta => some delta.toInt
  | .advance => none
  | .resync => none
  | .read _ => none
  | .batch => none
  | .packet _ _ => none
  | .dwell => none
  | .status => none

/-- A command as the host issues it, with its env and draws (R12). -/
structure Issue where
  instr : Instr
  env : Env
  draws : Draws
deriving DecidableEq, Repr

def Issue.event (c : Issue) : Event := .command (encode c.instr) c.env c.draws

/-- The meanings of several commands in a row, without a host between them. -/
def execAll : List Instr → State → Option State
  | [], s => some s
  | i :: rest, s =>
    match exec i s with
    | .next t => execAll rest t
    | .fault _ => none
    | .refused _ => none

/-- `n` steps, with the response after each, the first one first. -/
def runCollect : Nat → State → Option (State × List (Option Response))
  | 0, s => some (s, [])
  | n + 1, s =>
    match step s with
    | .next t =>
      match runCollect n t with
      | some (u, rs) => some (u, t.resp :: rs)
      | none => none
    | .fault _ => none
    | .refused _ => none

/-! ### The batch function of the source (R150, R163) -/

/-- A raw packet as the batch function takes it: PKT, SIDX and the trace it is measured on. -/
structure RawPacket where
  pkt : List Byte
  sidx : Word32
  env : Env
deriving DecidableEq, Repr

/-- The normalized bytes of a raw packet, its deduplication key (R155). -/
def RawPacket.key (c : Config) (p : RawPacket) : List Byte := revPkt c.pktLen p.pkt

/-- The packets of a batch that decode, in their order: those whose key no earlier packet of the batch has and whose
checksum passes (R150). `earlier` holds the keys of the packets before the list. -/
def decodedPackets (c : Config) : (earlier : List (List Byte)) → List RawPacket → List RawPacket
  | _, [] => []
  | earlier, p :: rest =>
    if p.key c ∉ earlier ∧ checksumPasses c (p.key c) = true then
      p :: decodedPackets c (p.key c :: earlier) rest
    else decodedPackets c (p.key c :: earlier) rest

/-- The same, where only a packet that passed the checksum counts as seen: the other policy of R165. -/
def decodedPacketsValidSeen (c : Config) : (earlier : List (List Byte)) → List RawPacket → List RawPacket
  | _, [] => []
  | earlier, p :: rest =>
    if p.key c ∉ earlier ∧ checksumPasses c (p.key c) = true then
      p :: decodedPacketsValidSeen c (p.key c :: earlier) rest
    else decodedPacketsValidSeen c earlier rest

/-- The message a packet decodes to (R160). -/
def RawPacket.message (c : Config) (p : RawPacket) : Message := frame (p.key c) p.sidx

/-- The command that hands a raw packet to the block. -/
def RawPacket.event (draws : Draws) (p : RawPacket) : Event :=
  .command (encode (.packet p.pkt p.sidx)) p.env draws

/-- The responses among `rs` that carry a message: ACCEPT, W0[0], is 1 (R84, R163). -/
def acceptedResponses (rs : List (Option Response)) : List Response :=
  (rs.filterMap id).filter (fun r => r.w0.getLsbD 0)

/-! ### The numbers binary64 values stand for (R11) -/

/-- The number a finite value stands for; 0 for a NaN and the infinities, which stand for none. -/
def rationalOf (x : F64) : ℚ :=
  match unpackF64 x with
  | .nan => 0
  | .inf _ => 0
  | .finite neg m e => (if neg then -1 else 1) * (m : ℚ) * (2 : ℚ) ^ e

/-- `r` is `q` rounded to nearest, ties to even: no finite value is nearer to `q`, and where one that stands for another
number is as near, the last bit of `r` is 0. The result is the infinity of q's sign exactly where q lies at least half
a unit past the largest finite value. -/
def IsRoundedToNearest (r : F64) (q : ℚ) : Prop :=
  if isFinite r = true then
    |q| < (2 : ℚ) ^ (1024 : ℤ) - (2 : ℚ) ^ (970 : ℤ) ∧
    ∀ z : F64, isFinite z = true →
      |rationalOf r - q| ≤ |rationalOf z - q| ∧
      (rationalOf z ≠ rationalOf r → |rationalOf z - q| = |rationalOf r - q| → r.getLsbD 0 = false)
  else (2 : ℚ) ^ (1024 : ℤ) - (2 : ℚ) ^ (970 : ℤ) ≤ |q| ∧ unpackF64 r = .inf (decide (q < 0))

end Sys2Proof.Machine
end

