-- ==== Sys2Proof/Certificates/Slice0/Obligations.lean ====
section
/-! DEFINITION. The statements for the provers, family by family of the spec's rules. -/

open Sys2Proof Sys2Proof.Machine

/-! ## Encoding and decoding (`30_encoding.md`) -/

/-- R70, R71, R72, R77: the decoder gives back every command from its encoding, at every channel field (9..15 too), every
DELTA, every SIDX and every packet record of the block's packet length. -/
def Obligations.DecodeUndoesEncode : Prop :=
  ∀ (pktLen : Nat) (i : Instr), i.recordFits pktLen = true → decode pktLen (encode i) = .command i

/-- R77: each command has one bit pattern apart from its CH value: `match` under `mask`, and for READ and UPDATE the
channel stands in bits 7..4. -/
def Obligations.EachCommandHasOneBitPattern : Prop :=
  ∀ (pktLen : Nat) (r : CommandRecord),
    (decode pktLen r = .command .advance ↔ r.cw &&& 0xFFFFFFFF#32 = 0x00000001#32) ∧
    (decode pktLen r = .command .resync ↔ r.cw &&& 0xFFFFFFFF#32 = 0x00000002#32) ∧
    ((∃ ch, decode pktLen r = .command (.read ch)) ↔ r.cw &&& 0xFFFFFF0F#32 = 0x00000003#32) ∧
    ((∃ ch delta, decode pktLen r = .command (.update ch delta)) ↔ r.cw &&& 0xFFFFFF0F#32 = 0x00000004#32) ∧
    (decode pktLen r = .command .batch ↔ r.cw &&& 0xFFFFFFFF#32 = 0x00000005#32) ∧
    ((∃ pkt sidx, decode pktLen r = .command (.packet pkt sidx)) ↔ r.cw &&& 0xFFFFFFFF#32 = 0x00000006#32) ∧
    (decode pktLen r = .command .dwell ↔ r.cw &&& 0xFFFFFFFF#32 = 0x00000007#32) ∧
    (decode pktLen r = .command .status ↔ r.cw &&& 0xFFFFFFFF#32 = 0x00000008#32) ∧
    (∀ ch, decode pktLen r = .command (.read ch) → r.cw = 0x00000003#32 ||| (ch.zeroExtend 32 <<< 4)) ∧
    (∀ ch delta, decode pktLen r = .command (.update ch delta) →
      r.cw = 0x00000004#32 ||| (ch.zeroExtend 32 <<< 4) ∧ delta = r.delta)

/-- `95_test_vectors.md` V-DECODE and R77: words written out bit by bit from the encoding decode to their commands, and
illegal words to the reason they are illegal. -/
def Obligations.WordsOfTheSpecDecode : Prop :=
  decode 2 { cw := 0b00000000000000000000000000000001#32, delta := 0, pkt := [], sidx := 0 } = .command .advance ∧
  decode 2 { cw := 0b00000000000000000000000000000010#32, delta := 0, pkt := [], sidx := 0 } = .command .resync ∧
  decode 2 { cw := 0b00000000000000000000000001010011#32, delta := 0, pkt := [], sidx := 0 } = .command (.read 5) ∧
  decode 2 { cw := 0b00000000000000000000000010000100#32, delta := 9, pkt := [], sidx := 0 }
    = .command (.update 8 9) ∧
  decode 2 { cw := 0b00000000000000000000000000000101#32, delta := 0, pkt := [], sidx := 0 } = .command .batch ∧
  decode 2 { cw := 0b00000000000000000000000000000110#32, delta := 0, pkt := [0x12, 0x34], sidx := 7 }
    = .command (.packet [0x12, 0x34] 7) ∧
  decode 2 { cw := 0b00000000000000000000000000000111#32, delta := 0, pkt := [], sidx := 0 } = .command .dwell ∧
  decode 2 { cw := 0b00000000000000000000000000001000#32, delta := 0, pkt := [], sidx := 0 } = .command .status ∧
  decode 2 { cw := 0x00000000#32, delta := 0, pkt := [], sidx := 0 } = .illegal .reservedOpcode ∧
  decode 2 { cw := 0x00000011#32, delta := 0, pkt := [], sidx := 0 } = .illegal .channelNotUsed ∧
  decode 2 { cw := 0x80000008#32, delta := 0, pkt := [], sidx := 0 } = .illegal .reservedBitsSet

/-- R76: the verdicts on a command word, in their order. (1) A faulted block runs nothing but the word 0x00000008; (2) an
illegal word raises ILLEGAL_CMD; (3) READ and UPDATE of a channel 9..15 raise BAD_CHANNEL; (4) otherwise the word is
legal and its command runs. -/
def Obligations.VerdictsOnACommandWordInOrder : Prop :=
  ∀ (s : State) (r : CommandRecord) (env : Env) (draws : Draws) (rest : List Event),
    s.input = .command r env draws :: rest →
    let opc := r.cw.toNat % 16
    let ch := r.cw.toNat / 16 % 16
    let rsv := r.cw.toNat / 256
    let taken : State := { s with input := rest, env := env, draws := draws }
    (s.fault ≠ .noFault ∧ r.cw ≠ 0x00000008#32 →
      step s = .next { taken with
        resp := some { rs := .faulted, w0 := (0#28) ++ s.fault.bits, w1 := 0, w2 := 0, pay := [] } }) ∧
    (s.fault = .noFault ∧ (opc = 0 ∨ 9 ≤ opc ∨ rsv ≠ 0 ∨ (ch ≠ 0 ∧ opc ≠ 3 ∧ opc ≠ 4)) →
      step s = .next { taken with
        fault := .illegalCmd
        resp := some { rs := .fault, w0 := 0x00000001#32, w1 := 0, w2 := 0, pay := [] } }) ∧
    (s.fault = .noFault ∧ rsv = 0 ∧ (opc = 3 ∨ opc = 4) ∧ 9 ≤ ch →
      step s = .next { taken with
        fault := .badChannel
        resp := some { rs := .fault, w0 := 0x00000002#32, w1 := 0, w2 := 0, pay := [] } }) ∧
    (rsv = 0 ∧ (((opc = 3 ∨ opc = 4) ∧ ch < 9) ∨ (1 ≤ opc ∧ opc ≤ 8 ∧ opc ≠ 3 ∧ opc ≠ 4 ∧ ch = 0)) ∧
        (s.fault = .noFault ∨ r.cw = 0x00000008#32) →
      ∃ i, decode s.cfg.pktLen r = .command i ∧ i.wellFormed s.cfg.pktLen = true ∧ step s = exec i taken)

/-- R71: a packet record of the wrong length cannot be presented. That the host's `submit` refuses it is the model's form
of that rule (log 21), and that everything else the host submits, a reset among it, joins the end of its command stream
is the model's choice (log 9). -/
def Obligations.PacketRecordOfAnotherLengthIsNotPresented : Prop :=
  ∀ (s : State) (r : CommandRecord) (env : Env) (draws : Draws),
    (r.cw &&& 0xF#32 = 6#32 → r.pkt.length ≠ s.cfg.pktLen →
      s.submit (.command r env draws) = .refused .recordLength) ∧
    ((r.cw &&& 0xF#32 = 6#32 → r.pkt.length = s.cfg.pktLen) →
      s.submit (.command r env draws) = .next { s with input := s.input ++ [.command r env draws] }) ∧
    s.submit .reset = .next { s with input := s.input ++ [.reset] }

/-- R88: a script line that is a command assembles to the word of that command, with its channel, under the env of the
last `.trace` line before it; its record decodes to the command. -/
def Obligations.ScriptCommandsAssembleToTheirWords : Prop :=
  ∀ (pktLen : Nat) (env : Env) (i : Instr) (draws : Draws) (x : F64) (len : Nat) (rest : List ScriptLine)
    (events : List Event),
    assemble pktLen env (.trace len (.fill x) :: .command i draws :: rest) = some events →
    ∃ r later, events = .command r { trace := List.replicate len x } draws :: later ∧
      decode pktLen r = .command i ∧ r.cw = (0#24) ++ channelBits i ++ opcode i ∧
      assemble pktLen { trace := List.replicate len x } rest = some later

/-! ## The step (R12, R61, R234, R250) -/

/-- R12: a step takes the host's next command and runs the instruction its record decodes to, with the env and the draws
that came with it. -/
def Obligations.StepRunsTheDecodedCommand : Prop :=
  ∀ (s : State) (r : CommandRecord) (env : Env) (draws : Draws) (rest : List Event) (i : Instr),
    s.input = .command r env draws :: rest → decode s.cfg.pktLen r = .command i →
    step s = exec i { s with input := rest, env := env, draws := draws }

/-- With no command to come a step changes nothing. The model deduces it from R234 and R253, by which the idle block holds
its state, and that the response field stays too is the model's choice (log 10). -/
def Obligations.IdleBlockHoldsItsState : Prop :=
  ∀ s : State, s.input = [] → step s = .next s

/-- R78, R12: the block answers at every step, and after a command there is one response, whose RS is not 3 and whose PAY
is empty but for an accepted PACKET. -/
def Obligations.EveryCommandGetsAResponse : Prop :=
  ∀ s : State, ∃ t, step s = .next t ∧
    ∀ (r : CommandRecord) (env : Env) (draws : Draws) (rest : List Event),
      s.input = .command r env draws :: rest →
      t.input = rest ∧ ∃ answer, t.resp = some answer ∧ answer.rs.bits ≠ 3 ∧
        (answer.pay ≠ [] → (∃ pkt sidx, decode s.cfg.pktLen r = .command (.packet pkt sidx)) ∧
          answer.rs = .ok ∧ answer.w0.getLsbD 0 = true)

/-- R251: a reset puts every state element at its reset value (LUT_VAL has none) and leaves the configuration. -/
def Obligations.ResetStepGivesTheResetValues : Prop :=
  ∀ (s : State) (rest : List Event), s.input = .reset :: rest →
    ∃ t, step s = .next t ∧ t.hopIdx = 0 ∧ t.curErr = 0 ∧ t.lutValid = 0 ∧ t.cache = [] ∧ t.cacheCount = 0 ∧
      t.fault = .noFault ∧ t.cfg = s.cfg

/-- The model's own choice (log 9): a reset takes away the response of an earlier command and leaves the host's later
events, the env and the draws. -/
def Obligations.ResetStepKeepsTheHostsEvents : Prop :=
  ∀ (s : State) (rest : List Event), s.input = .reset :: rest →
    ∃ t, step s = .next t ∧ t.input = rest ∧ t.resp = none ∧ t.env = s.env ∧ t.draws = s.draws

/-- R251: the state elements of the machine right after reset, for every configuration. -/
def Obligations.ResetStateHasTheResetValues : Prop :=
  State.reset = State.resetWith Config.build ∧
  ∀ c : Config, let s := State.resetWith c
    s.hopIdx = 0 ∧ s.curErr = 0 ∧ s.lutValid = 0 ∧ s.cache = [] ∧ s.cacheCount = 0 ∧ s.fault = .noFault ∧
      s.cfg = c ∧ s.input = []

/-- R28, R254: a configuration is refused unless HOP_PATTERN is a permutation of 0..8, PKT_LEN >= 5, SYMBOL_LEN >= 1,
SAMPLE_RATE >= 1, CFG_ID <= 68719 and DEDUP_DEPTH >= 1, and built where all of these hold. -/
def Obligations.IllFormedConfigurationIsRefused : Prop :=
  ∀ c : Config,
    (((∀ ch : Channel, ∃ i : HopIndex, c.hopPattern[i] = ch) ∧ 5 ≤ c.pktLen ∧ 1 ≤ c.symbolLen ∧ 1 ≤ c.sampleRate ∧
        c.cfgId ≤ 68719 ∧ 1 ≤ c.dedupDepth) →
      State.boot c = .next (State.resetWith c)) ∧
    (¬ ((∀ ch : Channel, ∃ i : HopIndex, c.hopPattern[i] = ch) ∧ 5 ≤ c.pktLen ∧ 1 ≤ c.symbolLen ∧
        1 ≤ c.sampleRate ∧ c.cfgId ≤ 68719 ∧ 1 ≤ c.dedupDepth) →
      State.boot c = .refused .illFormedConfig)

/-! ## The bit-order reversal unit (`40_bit_order.md`) -/

/-- R100, R102: REV8 mirrors the bits of a byte, and twice gives the byte back. -/
def Obligations.Rev8MirrorsTheBitsOfAByte : Prop :=
  ∀ b : Byte, (∀ i : Fin 8, (rev8 b).getLsbD i.val = b.getLsbD (7 - i.val)) ∧ rev8 (rev8 b) = b

/-- R103, R164: REVPKT reverses each byte where it stands, is its own inverse, and so keeps two packets apart exactly
where their raw bytes differ. -/
def Obligations.RevPktIsABijectionByteByByte : Prop :=
  ∀ (pktLen : Nat) (p q : List Byte), p.length = pktLen → q.length = pktLen →
    (revPkt pktLen p).length = pktLen ∧
    (∀ i, i < pktLen → (revPkt pktLen p)[i]? = (p[i]?).map rev8) ∧
    revPkt pktLen (revPkt pktLen p) = p ∧
    (revPkt pktLen p = revPkt pktLen q ↔ p = q)

/-! ## The hop sequencer (`41_hop_sequencer.md`) -/

/-- R111: DESCRIBE loads CUR_ERR from a valid entry of the channel in use, leaves it otherwise, changes nothing else, and
returns the channel, its frequency and CUR_ERR. -/
def Obligations.DescribeLoadsTheErrorOfTheChannel : Prop :=
  ∀ s : State,
    let ch := s.cfg.hopPattern[s.hopIdx]
    let e := if s.lutValid.getLsbD ch.val = true then s.lutVal[ch] else s.curErr
    describe s = ({ s with curErr := e }, { channel := ch, freq := s.cfg.channelTable[ch], err := e })

/-- R112, R79: ADVANCE, its word, its new state, its response and its one way not to run. Every field not named keeps its
value. -/
def Obligations.AdvanceMovesToTheNextHop : Prop :=
  (encode .advance).cw = 0x00000001#32 ∧
  ∀ (s : State) (i : HopIndex) (ch : Channel) (e : Word32),
    i.val = (s.hopIdx.val + 1) % 9 → ch = s.cfg.hopPattern[i] →
    e = (if s.lutValid.getLsbD ch.val = true then s.lutVal[ch] else s.curErr) →
    (s.running → exec .advance s = .next { s with
      hopIdx := i
      curErr := e
      resp := some { rs := .ok, w0 := BitVec.ofNat 32 ch.val, w1 := s.cfg.channelTable[ch], w2 := e, pay := [] } }) ∧
    (¬ s.running → answersFaulted .advance s)

/-- R114, R79: RESYNC goes to the drawn index, whatever it is. Every field not named keeps its value. -/
def Obligations.ResyncMovesToTheDrawnHop : Prop :=
  (encode .resync).cw = 0x00000002#32 ∧
  ∀ (s : State) (ch : Channel) (e : Word32),
    ch = s.cfg.hopPattern[s.draws.hop] →
    e = (if s.lutValid.getLsbD ch.val = true then s.lutVal[ch] else s.curErr) →
    (s.running → exec .resync s = .next { s with
      hopIdx := s.draws.hop
      curErr := e
      resp := some { rs := .ok, w0 := BitVec.ofNat 32 ch.val, w1 := s.cfg.channelTable[ch], w2 := e, pay := [] } }) ∧
    (¬ s.running → answersFaulted .resync s)

/-- R115: RESYNC admits every index 0..8 from every running state and goes on under each one. -/
def Obligations.ResyncAdmitsEveryIndex : Prop :=
  ∀ (s : State) (r : HopIndex) (v : Word32), s.running →
    ∃ t, exec .resync { s with draws := { hop := r, readValue := v } } = .next t ∧ t.hopIdx = r ∧ t.running

/-- R113: nine ADVANCE commands in a row return the nine channels, each exactly once, in the order of the pattern from the
index after the current one, and end at the index they began at. -/
def Obligations.NineAdvancesVisitEveryChannelOnce : Prop :=
  ∀ (s : State) (env : Env) (draws : Draws) (rest : List Event), s.running → s.cfg.wf = true →
    s.input = List.replicate 9 (.command (encode .advance) env draws) ++ rest →
    ∃ t rs, runCollect 9 s = some (t, rs) ∧ t.hopIdx = s.hopIdx ∧ t.running ∧ t.input = rest ∧ t.cfg = s.cfg ∧
      rs.length = 9 ∧
      (∀ (n : Nat) (i : HopIndex), n < 9 → i.val = (s.hopIdx.val + n + 1) % 9 →
        ∃ a, rs[n]? = some (some a) ∧ a.rs = .ok ∧ a.w0 = BitVec.ofNat 32 (s.cfg.hopPattern[i]).val) ∧
      (∀ ch : Channel, ∃! n : Nat, n < 9 ∧ ∃ a, rs[n]? = some (some a) ∧ a.w0 = BitVec.ofNat 32 ch.val)

/-- R116, R83: DWELL reports 3000 + CFG_ID * 62500 microseconds, exactly, and changes nothing. -/
def Obligations.DwellReportsTheDwellTime : Prop :=
  (encode .dwell).cw = 0x00000007#32 ∧
  ∀ s : State, s.cfg.cfgId ≤ 68719 →
    (s.running → ∃ w : Word32, w.toNat = 3000 + s.cfg.cfgId * 62500 ∧ w.toNat ≤ 4294940500 ∧
      exec .dwell s = .next { s with resp := some { rs := .ok, w0 := w, w1 := 0, w2 := 0, pay := [] } }) ∧
    (¬ s.running → answersFaulted .dwell s)

/-- R117: the dwell time depends on the configuration alone, and identifiers that differ by d give dwell times that differ
by d * 62500. -/
def Obligations.DwellDependsOnTheIdentifierAlone : Prop :=
  ∀ (s t : State) (d : Nat), s.running → t.running → t.cfg.cfgId = s.cfg.cfgId + d → t.cfg.cfgId ≤ 68719 →
    ∃ s' t' a b, exec .dwell s = .next s' ∧ exec .dwell t = .next t' ∧ s'.resp = some a ∧ t'.resp = some b ∧
      b.w0.toNat = a.w0.toNat + d * 62500

/-- R119: the default CHANNEL_TABLE, and the frequency a descriptor carries. -/
def Obligations.DescriptorCarriesTheTableFrequency : Prop :=
  (∀ k : Channel, (Config.defaultChannelTable[k]).toNat = 867500000 + 125000 * k.val) ∧
  ∀ s : State, (describe s).2.freq = s.cfg.channelTable[(describe s).2.channel]

/-- R253: the first ADVANCE and the first RESYNC after reset, for every configuration. -/
def Obligations.FirstHopAfterReset : Prop :=
  ∀ c : Config,
    (∃ t, exec .advance (State.resetWith c) = .next t ∧ t.hopIdx = 1 ∧
      t.resp = some { rs := .ok, w0 := BitVec.ofNat 32 (c.hopPattern[(1 : Fin 9)]).val,
                      w1 := c.channelTable[c.hopPattern[(1 : Fin 9)]], w2 := 0, pay := [] }) ∧
    (∀ draws : Draws, ∃ t, exec .resync { State.resetWith c with draws := draws } = .next t ∧ t.hopIdx = draws.hop ∧
      t.resp = some { rs := .ok, w0 := BitVec.ofNat 32 (c.hopPattern[draws.hop]).val,
                      w1 := c.channelTable[c.hopPattern[draws.hop]], w2 := 0, pay := [] })

/-! ## The frequency-error tracker (`42_freq_tracker.md`) -/

/-- R131, R81, R73: READ reports the existence flag and the entry, or the drawn value where there is none; a channel of
9..15 raises BAD_CHANNEL. READ changes nothing but the response. -/
def Obligations.ReadReportsTheEntry : Prop :=
  ∀ (s : State) (ch : BitVec 4),
    (encode (.read ch)).cw = 0x00000003#32 ||| (ch.zeroExtend 32 <<< 4) ∧
    (∀ k : Channel, k.val = ch.toNat → s.running → s.lutValid.getLsbD k.val = true →
      exec (.read ch) s = .next { s with
        resp := some { rs := .ok, w0 := 1, w1 := s.lutVal[k], w2 := 0, pay := [] } }) ∧
    (∀ k : Channel, k.val = ch.toNat → s.running → s.lutValid.getLsbD k.val = false →
      exec (.read ch) s = .next { s with
        resp := some { rs := .ok, w0 := 0, w1 := s.draws.readValue, w2 := 0, pay := [] } }) ∧
    (9 ≤ ch.toNat → s.running → raises (.read ch) s .badChannel) ∧
    (¬ s.running → answersFaulted (.read ch) s)

/-- R132: where there is no entry, READ's VALUE may be every s32. -/
def Obligations.ReadOfAnAbsentEntryAdmitsEveryValue : Prop :=
  ∀ (s : State) (k : Channel) (v : Word32), s.running → s.lutValid.getLsbD k.val = false →
    ∃ t a, exec (.read (BitVec.ofNat 4 k.val)) { s with draws := { s.draws with readValue := v } } = .next t ∧
      t.resp = some a ∧ a.rs = .ok ∧ a.w0.getLsbD 0 = false ∧ a.w1 = v

/-- R133: TRACK_UPDATE adds exactly, writes CUR_ERR, the entry and its valid bit together, or faults and writes none. -/
def Obligations.TrackUpdateAddsAndStores : Prop :=
  ∀ (k : Channel) (delta : Int) (s : State),
    (-2147483648 ≤ s.curErr.toInt + delta → s.curErr.toInt + delta ≤ 2147483647 →
      ∃ v : Word32, v.toInt = s.curErr.toInt + delta ∧
        ∃ valid : BitVec 9, (∀ j : Channel, valid.getLsbD j.val = (s.lutValid.getLsbD j.val || decide (j = k))) ∧
          trackUpdate k delta s
            = .ok { s with curErr := v, lutVal := s.lutVal.set k.val v, lutValid := valid }) ∧
    (s.curErr.toInt + delta < -2147483648 ∨ 2147483647 < s.curErr.toInt + delta →
      trackUpdate k delta s = .error .errOverflow)

/-- R134, R82, R73: UPDATE adds its sign-extended DELTA to CUR_ERR and stores the sum for the channel it names, whichever
channel is in use; the sum is exact or the command raises ERR_OVERFLOW. Every field not named keeps its value. -/
def Obligations.UpdateAddsAndStores : Prop :=
  ∀ (s : State) (ch : BitVec 4) (delta : Word32),
    (encode (.update ch delta)).cw = 0x00000004#32 ||| (ch.zeroExtend 32 <<< 4) ∧
    (encode (.update ch delta)).delta = delta ∧
    (∀ (k : Channel) (v : Word32), k.val = ch.toNat → s.running → v.toInt = s.curErr.toInt + delta.toInt →
      ∃ valid : BitVec 9, (∀ j : Channel, valid.getLsbD j.val = (s.lutValid.getLsbD j.val || decide (j = k))) ∧
        exec (.update ch delta) s = .next { s with
          curErr := v
          lutVal := s.lutVal.set k.val v
          lutValid := valid
          resp := some { rs := .ok, w0 := 0, w1 := 0, w2 := 0, pay := [] } }) ∧
    (ch.toNat < 9 → s.running →
      (s.curErr.toInt + delta.toInt < -2147483648 ∨ 2147483647 < s.curErr.toInt + delta.toInt) →
      raises (.update ch delta) s .errOverflow) ∧
    (9 ≤ ch.toNat → s.running → raises (.update ch delta) s .badChannel) ∧
    (¬ s.running → answersFaulted (.update ch delta) s)

/-- R135, for UPDATE commands: updates of one channel compound, whatever READ, STATUS, DWELL and BATCH commands come
between them. If no partial sum leaves s32, all of the commands complete, and CUR_ERR and the entry both end at the start
value plus the sum of the deltas. -/
def Obligations.UpdatesOfOneChannelCompound : Prop :=
  ∀ (s : State) (k : Channel) (commands : List Issue) (deltas : List Int) (rest : List Event), s.running →
    (∀ c ∈ commands, (∃ d, c.instr = .update (BitVec.ofNat 4 k.val) d) ∨ (∃ ch, c.instr = .read ch ∧ ch.toNat < 9) ∨
      c.instr = .status ∨ c.instr = .dwell ∨ c.instr = .batch) →
    deltas = commands.filterMap (fun c => updateDelta c.instr) → deltas ≠ [] →
    s.input = commands.map Issue.event ++ rest →
    (∀ n, n ≤ deltas.length →
      -2147483648 ≤ s.curErr.toInt + (deltas.take n).sum ∧ s.curErr.toInt + (deltas.take n).sum ≤ 2147483647) →
    ∃ t rs, runCollect commands.length s = some (t, rs) ∧ t.running ∧ t.input = rest ∧
      t.curErr.toInt = s.curErr.toInt + deltas.sum ∧ t.lutVal[k] = t.curErr ∧ t.lutValid.getLsbD k.val = true ∧
      (∀ j : Channel, j ≠ k → t.lutVal[j] = s.lutVal[j] ∧ t.lutValid.getLsbD j.val = s.lutValid.getLsbD j.val) ∧
      t.hopIdx = s.hopIdx ∧ t.cfg = s.cfg ∧
      ((∀ c ∈ commands, c.instr ≠ .batch) → t.cache = s.cache ∧ t.cacheCount = s.cacheCount)

/-- R135, for UPDATE and PACKET commands together: on a run in which no command faults, hops or updates another channel,
every delta of an UPDATE and every measurement of an accepted PACKET is added to CUR_ERR, and if there was one, the entry
of the channel holds the sum. -/
def Obligations.UpdatesAndPacketsOfOneChannelCompound : Prop :=
  ∀ (s t : State) (k : Channel) (commands : List Issue) (rest : List Event) (rs : List (Option Response)), s.running →
    (∀ c ∈ commands, c.instr ≠ .advance ∧ c.instr ≠ .resync ∧
      (∀ ch d, c.instr = .update ch d → ch.toNat = k.val) ∧
      (∀ pkt sidx, c.instr = .packet pkt sidx → pkt.length = s.cfg.pktLen ∧ k = s.cfg.hopPattern[s.hopIdx])) →
    s.input = commands.map Issue.event ++ rest →
    runCollect commands.length s = some (t, rs) → t.running →
    ∃ deltas : List (Option Int), deltas.length = commands.length ∧
      (∀ (n : Nat) (c : Issue), commands[n]? = some c → ∃ x a, deltas[n]? = some x ∧ rs[n]? = some (some a) ∧
        (∀ pkt sidx, c.instr = .packet pkt sidx → a.w0.getLsbD 0 = true →
          ∃ e, measureError s.cfg c.env sidx.toNat = .ok e ∧ x = some e) ∧
        (∀ pkt sidx, c.instr = .packet pkt sidx → a.w0.getLsbD 0 = false → x = none) ∧
        ((∀ pkt sidx, c.instr ≠ .packet pkt sidx) → x = updateDelta c.instr)) ∧
      t.curErr.toInt = s.curErr.toInt + (deltas.filterMap id).sum ∧
      (deltas.filterMap id ≠ [] → t.lutVal[k] = t.curErr ∧ t.lutValid.getLsbD k.val = true) ∧
      (∀ j : Channel, j ≠ k → t.lutVal[j] = s.lutVal[j] ∧ t.lutValid.getLsbD j.val = s.lutValid.getLsbD j.val) ∧
      t.hopIdx = s.hopIdx ∧ t.cfg = s.cfg ∧ t.input = rest

/-- R136: after an UPDATE of a channel, a DESCRIBE that resolves to it reports the error before the update plus the delta,
whatever commands came between, as long as none of them updates that channel (an UPDATE of it or a PACKET). -/
def Obligations.DescribeReportsTheUpdatedError : Prop :=
  ∀ (s t u : State) (k : Channel) (delta : Word32) (between : List Instr) (i : HopIndex),
    s.running → exec (.update (BitVec.ofNat 4 k.val) delta) s = .next t → t.running →
    (∀ c ∈ between, (∀ d, c ≠ .update (BitVec.ofNat 4 k.val) d) ∧ ∀ pkt sidx, c ≠ .packet pkt sidx) →
    execAll between t = some u → u.cfg.hopPattern[i] = k →
    (describe { u with hopIdx := i }).2.channel = k ∧
      (describe { u with hopIdx := i }).2.err.toInt = s.curErr.toInt + delta.toInt

/-- R23: no command clears a valid bit; a command sets one only as the channel of an UPDATE or as the channel in use of a
PACKET that was accepted; all are 0 after reset. -/
def Obligations.ValidBitsAreSetByUpdatesAlone : Prop :=
  (∀ (i : Instr) (s t : State) (k : Channel), exec i s = .next t →
    (s.lutValid.getLsbD k.val = true → t.lutValid.getLsbD k.val = true) ∧
    (s.lutValid.getLsbD k.val = false → t.lutValid.getLsbD k.val = true →
      (∃ d, i = .update (BitVec.ofNat 4 k.val) d) ∨
      (∃ pkt sidx a, i = .packet pkt sidx ∧ k = s.cfg.hopPattern[s.hopIdx] ∧ t.resp = some a ∧ a.rs = .ok ∧
        a.w0.getLsbD 0 = true))) ∧
  (∀ c, (State.resetWith c).lutValid = 0)

/-- R141, R142: MEASURE reads the 16 symbol periods [SIDX + 8*SYMBOL_LEN, SIDX + 24*SYMBOL_LEN) of the trace, with exact
indices, raises TRACE_BOUNDS exactly where the trace ends before the window does, and FREQ_INVALID exactly where
FREQ_EST gives no value. -/
def Obligations.MeasureReadsTheWindow : Prop :=
  ∀ (c : Config) (env : Env) (sidx : Nat),
    (env.trace.length < sidx + 24 * c.symbolLen → measureError c env sidx = .error .traceBounds) ∧
    (sidx + 24 * c.symbolLen ≤ env.trace.length →
      ∃ xs : List F64, xs.length = 16 * c.symbolLen ∧
        (∀ j, j < 16 * c.symbolLen → xs[j]? = env.trace[sidx + 8 * c.symbolLen + j]?) ∧
        (∀ e, freqEstOf c xs = some e → measureError c env sidx = .ok e) ∧
        (freqEstOf c xs = none → measureError c env sidx = .error .freqInvalid))

/-- R142: the reference evaluation gives no value where a sample of the window is a NaN or infinite, and none outside
s32. -/
def Obligations.ReferenceEvaluationRefusesNonFiniteSamples : Prop :=
  ∀ (rate : Nat) (xs : List F64),
    ((∃ x ∈ xs, isFinite x = false) → freqEstRef rate xs = none) ∧
    (∀ e, freqEstRef rate xs = some e → -2147483648 ≤ e ∧ e ≤ 2147483647)

/-- `95_test_vectors.md` V-FREQ: the reference evaluation on the spec's windows (all 0.0; all -3.125; -3.0 and -3.25; all
1.0; the binary64 of -π; 32 samples at 38400; a NaN; an infinity). The values rest on the pattern of TWO_PI, which R140
gives and marks "[from general knowledge, not in source]" (log 17, PRESUMED). -/
def Obligations.ReferenceEvaluationOnTheSpecsWindows : Prop :=
  freqEstRef 19200 (List.replicate 16 0x0000000000000000#64) = some (-9600) ∧
  freqEstRef 19200 (List.replicate 16 0xC009000000000000#64) = some (-50) ∧
  freqEstRef 19200 (List.replicate 8 0xC008000000000000#64 ++ List.replicate 8 0xC00A000000000000#64) = some (-50) ∧
  freqEstRef 19200 (List.replicate 16 0x3FF0000000000000#64) = some (-12655) ∧
  freqEstRef 19200 (List.replicate 16 0xC00921FB54442D18#64) = some 0 ∧
  freqEstRef 38400 (List.replicate 32 0xC009000000000000#64) = some 9498 ∧
  freqEstRef 19200 (0x7FF8000000000000#64 :: List.replicate 15 0x0000000000000000#64) = none ∧
  freqEstRef 19200 (0x7FF0000000000000#64 :: List.replicate 15 0x0000000000000000#64) = none

/-- R11: on finite operands `fadd`, `fmul` and `fdiv` (by a number that is not 0), and `f64(n)`, give the exact result
rounded to nearest, ties to even. -/
def Obligations.FloatOperationsRoundToNearest : Prop :=
  (∀ x y : F64, isFinite x = true → isFinite y = true →
    IsRoundedToNearest (fadd x y) (rationalOf x + rationalOf y) ∧
    IsRoundedToNearest (fmul x y) (rationalOf x * rationalOf y) ∧
    (rationalOf y ≠ 0 → IsRoundedToNearest (fdiv x y) (rationalOf x / rationalOf y))) ∧
  ∀ n : Nat, IsRoundedToNearest (f64OfNat n) n

/-- R11: `is_finite` is false exactly for the patterns whose exponent field is all ones, and `trunc` of a finite value is
its integer part toward zero. -/
def Obligations.TruncIsTheIntegerPartTowardZero : Prop :=
  ∀ x : F64, (isFinite x = false ↔ x.toNat / 2 ^ 52 % 2 ^ 11 = 2047) ∧
    (isFinite x = false → truncF64 x = none) ∧
    (isFinite x = true → ∃ v : Int, truncF64 x = some v ∧
      |(v : ℚ)| ≤ |rationalOf x| ∧ |rationalOf x| < |(v : ℚ)| + 1 ∧ 0 ≤ (v : ℚ) * rationalOf x)

/-! ## The packet pipeline (`43_packet_decoder.md`, `44_message.md`) -/

/-- R151, R82: BATCH empties the cache and changes nothing else. -/
def Obligations.BatchEmptiesTheCache : Prop :=
  (encode .batch).cw = 0x00000005#32 ∧
  ∀ s : State,
    (s.running → exec .batch s = .next { s with
      cache := []
      cacheCount := 0
      resp := some { rs := .ok, w0 := 0, w1 := 0, w2 := 0, pay := [] } }) ∧
    (¬ s.running → answersFaulted .batch s)

/-- R154, R155: a packet whose normalized bytes are in CACHE is dropped, at whatever sample index and on whatever trace, and
nothing but the response changes. -/
def Obligations.DuplicatePacketIsDropped : Prop :=
  ∀ (s : State) (pkt : List Byte) (sidx : Word32) (env : Env), s.running →
    pkt.length = s.cfg.pktLen → pkt.map rev8 ∈ s.cache →
    exec (.packet pkt sidx) { s with env := env } = .next { s with
      env := env
      resp := some { rs := .ok, w0 := 0, w1 := 0, w2 := 0, pay := [] } }

/-- R156: a new key on a full cache raises CACHE_FULL, before the checksum runs and whatever it would say. The number held
against DEDUP_DEPTH is CACHE_COUNT (R152), and, by the model's choice (log 5), the size of CACHE, which CACHE_COUNT is to
equal, where that size is no u32. -/
def Obligations.NewKeyOnAFullCacheFaults : Prop :=
  ∀ (s : State) (pkt : List Byte) (sidx : Word32), s.running →
    pkt.length = s.cfg.pktLen → pkt.map rev8 ∉ s.cache →
    (if s.cache.length < 2 ^ 32 then s.cacheCount.toNat else s.cache.length) = s.cfg.dedupDepth →
    raises (.packet pkt sidx) s .cacheFull

/-- R157, R161: a new packet whose remainder over the bytes after the prefix is not 0 is dropped; its key stays in CACHE,
which CACHE_COUNT counts while the size is a u32 (its value past that is free, log 5), and nothing else changes, whatever
the trace. That past 2^32 keys it is the size of CACHE that is held against DEDUP_DEPTH (log 5), and that the key stands
at the end of the list that stands for the set (log 19), are the model's choices. -/
def Obligations.PacketThatFailsTheChecksumIsDropped : Prop :=
  ∀ (s : State) (pkt : List Byte) (sidx : Word32), s.running →
    pkt.length = s.cfg.pktLen → pkt.map rev8 ∉ s.cache → s.cacheSize ≠ s.cfg.dedupDepth →
    checksumOf s.cfg ((pkt.map rev8).drop 2) ≠ 0 →
    ∃ count : Word32, (s.cache.length + 1 < 2 ^ 32 → count = s.cacheCount + 1) ∧
      exec (.packet pkt sidx) s = .next { s with
        cache := s.cache ++ [pkt.map rev8]
        cacheCount := count
        resp := some { rs := .ok, w0 := 0, w1 := 0, w2 := 0, pay := [] } }

/-- R152, R159, R160, R180, R84: a new packet that passes the checksum and whose window measures e. CACHE takes its key,
CUR_ERR and the entry of the channel in use take CUR_ERR + e, and the response carries the message: ACCEPT, ID, SENSOR,
KNOWN, WIND_SPEED, WIND_DIR, SIDX and the stripped payload. HOP_IDX and every other field keep their values. CACHE_COUNT counts the key while the size is a u32.
The model's choices here: past 2^32 keys it is the size of CACHE that is held against DEDUP_DEPTH, and CACHE_COUNT is free
(log 5); the key stands at the end of the list that stands for the set (log 19). -/
def Obligations.ValidPacketIsDecoded : Prop :=
  (∀ pkt sidx, (encode (.packet pkt sidx)).cw = 0x00000006#32) ∧
  ∀ (s : State) (pkt : List Byte) (sidx : Word32) (e : Int) (v : Word32) (k : Channel) (p : List Byte)
    (p0 p1 p2 : Byte) (tail : List Byte),
    s.running → pkt.length = s.cfg.pktLen → pkt.map rev8 ∉ s.cache → s.cacheSize ≠ s.cfg.dedupDepth →
    p = (pkt.map rev8).drop 2 → p = p0 :: p1 :: p2 :: tail → checksumOf s.cfg p = 0 →
    measureError s.cfg s.env sidx.toNat = .ok e → v.toInt = s.curErr.toInt + e → k = s.cfg.hopPattern[s.hopIdx] →
    ∃ (valid : BitVec 9) (w count : Word32), (s.cache.length + 1 < 2 ^ 32 → count = s.cacheCount + 1) ∧
      (∀ j : Channel, valid.getLsbD j.val = (s.lutValid.getLsbD j.val || decide (j = k))) ∧
      w.toNat = 1 + 16 * (p0.toNat % 16) + 256 * (p0.toNat / 16)
        + (if p0.toNat / 16 ∈ [2, 4, 5, 6, 7, 8, 9, 10, 14] then 4096 else 0)
        + 65536 * p1.toNat + 16777216 * p2.toNat ∧
      exec (.packet pkt sidx) s = .next { s with
        cache := s.cache ++ [pkt.map rev8]
        cacheCount := count
        curErr := v
        lutVal := s.lutVal.set k.val v
        lutValid := valid
        resp := some { rs := .ok, w0 := w, w1 := sidx, w2 := 0, pay := p } }

/-- R152, R224, R226: the faults of steps 4 and 5 of PACKET, in their order. Each discards the insertion of step 2. That
past 2^32 keys it is the size of CACHE that is held against DEDUP_DEPTH is the model's choice (log 5). -/
def Obligations.PacketFaultsDiscardTheInsertion : Prop :=
  ∀ (s : State) (pkt : List Byte) (sidx : Word32), s.running →
    pkt.length = s.cfg.pktLen → pkt.map rev8 ∉ s.cache → s.cacheSize ≠ s.cfg.dedupDepth →
    checksumOf s.cfg ((pkt.map rev8).drop 2) = 0 →
    (s.env.trace.length < sidx.toNat + 24 * s.cfg.symbolLen → raises (.packet pkt sidx) s .traceBounds) ∧
    (sidx.toNat + 24 * s.cfg.symbolLen ≤ s.env.trace.length →
      freqEstOf s.cfg ((s.env.trace.drop (sidx.toNat + 8 * s.cfg.symbolLen)).take (16 * s.cfg.symbolLen)) = none →
      raises (.packet pkt sidx) s .freqInvalid) ∧
    (∀ e, measureError s.cfg s.env sidx.toNat = .ok e →
      (s.curErr.toInt + e < -2147483648 ∨ 2147483647 < s.curErr.toInt + e) →
      raises (.packet pkt sidx) s .errOverflow)

/-- R165: the messages a batch's PACKET commands give do not depend on whether every new key counts as seen, as CACHE
counts them, or only the keys of packets that passed the checksum: they are the messages of the packets that decode under
that other policy. -/
def Obligations.SeenPolicyDoesNotChangeWhatDecodes : Prop :=
  ∀ (s t : State) (packets : List RawPacket) (env : Env) (draws : Draws) (rest : List Event)
    (rs : List (Option Response)),
    s.running → s.Inv → (∀ p ∈ packets, p.pkt.length = s.cfg.pktLen) →
    s.input = .command (encode .batch) env draws :: (packets.map (RawPacket.event draws) ++ rest) →
    runCollect (packets.length + 1) s = some (t, rs) → t.running →
    acceptedResponses rs =
      (decodedPacketsValidSeen s.cfg [] packets).map (fun p => messageResponse (p.message s.cfg))

/-- R163, R150: BATCH and then one PACKET per raw packet compute the source's batch function, if no command faults. The
responses with ACCEPT = 1 are the messages of the packets that decode, in the packets' order; every decoded packet's
measurement is added to CUR_ERR, which the entry of the channel in use holds if there was one; nothing else of the hop
state or the tracker changes. -/
def Obligations.PacketCommandsComputeTheBatchFunction : Prop :=
  ∀ (s t : State) (packets : List RawPacket) (env : Env) (draws : Draws) (rest : List Event)
    (rs : List (Option Response)),
    s.running → s.Inv → (∀ p ∈ packets, p.pkt.length = s.cfg.pktLen) →
    s.input = .command (encode .batch) env draws :: (packets.map (RawPacket.event draws) ++ rest) →
    runCollect (packets.length + 1) s = some (t, rs) → t.running →
    let decoded := decodedPackets s.cfg [] packets
    acceptedResponses rs = decoded.map (fun p => messageResponse (p.message s.cfg)) ∧
    (∃ es : List Int, es.length = decoded.length ∧
      (∀ n, n < decoded.length → ∃ p e, decoded[n]? = some p ∧ es[n]? = some e ∧
        measureError s.cfg p.env p.sidx.toNat = .ok e) ∧
      t.curErr.toInt = s.curErr.toInt + es.sum) ∧
    (∀ k : Channel, if decoded ≠ [] ∧ k = s.cfg.hopPattern[s.hopIdx] then
        t.lutVal[k] = t.curErr ∧ t.lutValid.getLsbD k.val = true
      else t.lutVal[k] = s.lutVal[k] ∧ t.lutValid.getLsbD k.val = s.lutValid.getLsbD k.val) ∧
    t.hopIdx = s.hopIdx ∧ t.cfg = s.cfg ∧ t.input = rest

/-- R180, R182: the frame parser on a packet of at least 5 bytes. -/
def Obligations.FrameReadsTheFields : Prop :=
  ∀ (b0 b1 b2 b3 b4 : Byte) (tail : List Byte) (sidx : Word32),
    let m := frame (b0 :: b1 :: b2 :: b3 :: b4 :: tail) sidx
    m.id.toNat = b2.toNat % 16 ∧ (sensorCode m.sensor).toNat = b2.toNat / 16 ∧
    (sensorKnown m.sensor = true ↔ b2.toNat / 16 ∈ [2, 4, 5, 6, 7, 8, 9, 10, 14]) ∧
    m.windSpeed = b3 ∧ m.windDir = b4 ∧ m.sidx = sidx ∧ m.payload = b2 :: b3 :: b4 :: tail

/-- R182, R184: the names of the sixteen codes. -/
def Obligations.SensorNamesOfTheSixteenCodes : Prop :=
  (List.range 16).map (fun c => sensorName (sensorOfCode (BitVec.ofNat 4 c))) =
    ["Unknown(0x0)", "Unknown(0x1)", "SuperCapVoltage", "Unknown(0x3)", "UVIndex", "RainRate", "SolarRadiation", "Light",
      "Temperature", "WindGustSpeed", "Humidity", "Unknown(0xB)", "Unknown(0xC)", "Unknown(0xD)", "Rain",
      "Unknown(0xF)"]

/-! ## STATUS (`45_status.md`) -/

/-- R200, R85: STATUS runs in every state, faulted or not, reports HOP_IDX, FAULT, LUT_VALID, CUR_ERR and CACHE_COUNT, and
changes nothing but the response. -/
def Obligations.StatusReportsTheState : Prop :=
  (encode .status).cw = 0x00000008#32 ∧
  ∀ s : State, ∃ w : Word32,
    w.toNat = s.hopIdx.val + 16 * s.fault.bits.toNat + 65536 * s.lutValid.toNat ∧
    exec .status s = .next { s with
      resp := some { rs := .ok, w0 := w, w1 := s.curErr, w2 := s.cacheCount, pay := [] } }

/-! ## Faults (`60_exceptions.md`) -/

/-- R221: the codes of the FAULT register. -/
def Obligations.FaultCodesOfTheTable : Prop :=
  FaultCode.bits .noFault = 0 ∧ FaultCode.bits .illegalCmd = 1 ∧ FaultCode.bits .badChannel = 2 ∧
  FaultCode.bits .cacheFull = 3 ∧ FaultCode.bits .traceBounds = 4 ∧ FaultCode.bits .freqInvalid = 5 ∧
  FaultCode.bits .errOverflow = 6 ∧ ∀ c : FaultCode, c.bits.toNat < 7

/-- R224: faults are precise. Whatever command raises a fault, the next state differs from the state before it in FAULT
and the response alone. -/
def Obligations.FaultsArePrecise : Prop :=
  ∀ (i : Instr) (s t : State), s.running → exec i s = .next t → ¬ t.running →
    raises i s t.fault

/-- R225: while FAULT is not 0, every command but STATUS answers FAULTED with the held code and changes nothing. -/
def Obligations.FaultedBlockRunsOnlyStatus : Prop :=
  ∀ (i : Instr) (s : State), ¬ s.running → i ≠ .status → answersFaulted i s

/-- R27, R225, R252: a fault, once raised, keeps its code through every step but a reset, and the state elements of R20
stay as they were before the faulting command. -/
def Obligations.OnlyResetClearsAFault : Prop :=
  ∀ s t : State, ¬ s.running → step s = .next t → (∀ rest, s.input ≠ .reset :: rest) →
    t.fault = s.fault ∧ t.hopIdx = s.hopIdx ∧ t.curErr = s.curErr ∧ t.lutValid = s.lutValid ∧ t.lutVal = s.lutVal ∧
      t.cache = s.cache ∧ t.cacheCount = s.cacheCount

/-! ## The whole machine -/

/-- R20 to R23, R26, R27: which commands write which state element. What a command is not named for, it leaves as it was.
No command writes the configuration (R6), nor the host's events, the env and the draws, which stand in the state by the
model's choice (log 1). -/
def Obligations.OnlyTheNamedCommandsWriteEachElement : Prop :=
  ∀ (i : Instr) (s t : State), exec i s = .next t →
    t.cfg = s.cfg ∧ t.input = s.input ∧ t.env = s.env ∧ t.draws = s.draws ∧
    (t.hopIdx ≠ s.hopIdx → i = .advance ∨ i = .resync) ∧
    (t.curErr ≠ s.curErr → i = .advance ∨ i = .resync ∨ (∃ ch d, i = .update ch d) ∨ ∃ p x, i = .packet p x) ∧
    (∀ k : Channel, t.lutVal[k] ≠ s.lutVal[k] →
      (∃ d, i = .update (BitVec.ofNat 4 k.val) d) ∨ (k = s.cfg.hopPattern[s.hopIdx] ∧ ∃ p x, i = .packet p x)) ∧
    (∀ k : Channel, t.lutValid.getLsbD k.val ≠ s.lutValid.getLsbD k.val →
      (∃ d, i = .update (BitVec.ofNat 4 k.val) d) ∨ (k = s.cfg.hopPattern[s.hopIdx] ∧ ∃ p x, i = .packet p x)) ∧
    (t.cache ≠ s.cache ∨ t.cacheCount ≠ s.cacheCount → i = .batch ∨ ∃ p x, i = .packet p x) ∧
    (t.fault ≠ s.fault → s.fault = .noFault ∧
      ((∃ ch, i = .read ch) ∨ (∃ ch d, i = .update ch d) ∨ ∃ p x, i = .packet p x))

/-- R20, R26, R28: every step keeps the invariant: the configuration is well formed, and CACHE is a set of at most
DEDUP_DEPTH keys of PKT_LEN bytes whose size is CACHE_COUNT, where it is a u32 (log 5). -/
def Obligations.EveryStepKeepsTheInvariant : Prop :=
  ∀ s t : State, s.Inv → step s = .next t → t.Inv

/-- R251, R254: the invariant holds right after reset, for every well-formed configuration, and for the one of
`State.reset`. -/
def Obligations.InvariantHoldsAtReset : Prop :=
  (∀ c : Config, c.wf = true → (State.resetWith c).Inv) ∧ State.reset.Inv

/-- R24, R26, R33: no run shows the value of a LUT entry whose valid bit is 0, nor the order of CACHE. From two states that
differ in those alone, a step gives two states that differ in those alone, and so the same response. -/
def Obligations.HiddenStateDoesNotShow : Prop :=
  ∀ s t : State, s.SameToHost t → ∃ s' t', step s = .next s' ∧ step t = .next t' ∧ s'.SameToHost t'
end

