-- ==== Sys2Proof/Laws/Decode.lean ====
section
/-! SUPPORT. The fields of a command word and of its record. -/

namespace Sys2Proof

theorem opcField_append : ∀ c o : BitVec 4, opcField ((0#24) ++ c ++ o) = o := by decide

theorem chField_append : ∀ c o : BitVec 4, chField ((0#24) ++ c ++ o) = c := by decide

theorem rsvField_append : ∀ c o : BitVec 4, rsvField ((0#24) ++ c ++ o) = 0 := by decide

@[simp] theorem opcField_encodeWord (i : Instr) : opcField (encodeWord i) = opcode i := opcField_append _ _

@[simp] theorem chField_encodeWord (i : Instr) : chField (encodeWord i) = channelBits i := chField_append _ _

@[simp] theorem rsvField_encodeWord (i : Instr) : rsvField (encodeWord i) = 0 := rsvField_append _ _

@[simp] theorem encode_cw (i : Instr) : (encode i).cw = encodeWord i := by cases i <;> rfl

/-- A command word is its three fields. -/
theorem word_eq_fields (cw : Word32) : cw = rsvField cw ++ chField cw ++ opcField cw := by
  apply BitVec.eq_of_getLsbD_eq
  intro j hj
  simp only [rsvField, chField, opcField, BitVec.getLsbD_append, BitVec.getLsbD_extractLsb']
  by_cases h4 : j < 4
  · simp [h4]
  · by_cases h8 : j < 8
    · have : j - 4 < 4 := by omega
      simp [h4, this, show 4 + (j - 4) = j by omega]
    · have h84 : ¬ j - 4 < 4 := by omega
      simp [h4, h84, show 8 + (j - 4 - 4) = j by omega, show j - 4 - 4 < 24 by omega]

@[simp] theorem packetBytes_length (n : Nat) (pkt : List Byte) : (packetBytes n pkt).length = n := by
  simp [packetBytes]

theorem packetBytes_getElem? (n : Nat) (pkt : List Byte) (j : Nat) (h : j < n) :
    (packetBytes n pkt)[j]? = some (pktByte pkt j) := by
  simp [packetBytes, h]

/-- A packet record of the right length is read as it stands. -/
theorem packetBytes_of_length {n : Nat} {pkt : List Byte} (h : pkt.length = n) : packetBytes n pkt = pkt := by
  subst h
  apply List.ext_getElem (by simp)
  intro j h1 h2
  simp [packetBytes, pktByte, List.getElem?_eq_getElem h2]

end Sys2Proof
end

