-- ==== Sys2Proof/Laws/State.lean ====
section
/-! SUPPORT. What each write of `Machine/Ops.lean` leaves in each field of the state: one lemma per field per write, so
that no later proof unfolds a record update. -/

namespace Sys2Proof.Machine.State

/-! ### setHopIdx -/

@[simp] theorem setHopIdx_cfg (s : State) (i : HopIndex) :
    (s.setHopIdx i).cfg = s.cfg := rfl
@[simp] theorem setHopIdx_hopIdx (s : State) (i : HopIndex) :
    (s.setHopIdx i).hopIdx = i := rfl
@[simp] theorem setHopIdx_curErr (s : State) (i : HopIndex) :
    (s.setHopIdx i).curErr = s.curErr := rfl
@[simp] theorem setHopIdx_lutValid (s : State) (i : HopIndex) :
    (s.setHopIdx i).lutValid = s.lutValid := rfl
@[simp] theorem setHopIdx_lutVal (s : State) (i : HopIndex) :
    (s.setHopIdx i).lutVal = s.lutVal := rfl
@[simp] theorem setHopIdx_cache (s : State) (i : HopIndex) :
    (s.setHopIdx i).cache = s.cache := rfl
@[simp] theorem setHopIdx_cacheCount (s : State) (i : HopIndex) :
    (s.setHopIdx i).cacheCount = s.cacheCount := rfl
@[simp] theorem setHopIdx_fault (s : State) (i : HopIndex) :
    (s.setHopIdx i).fault = s.fault := rfl
@[simp] theorem setHopIdx_input (s : State) (i : HopIndex) :
    (s.setHopIdx i).input = s.input := rfl
@[simp] theorem setHopIdx_env (s : State) (i : HopIndex) :
    (s.setHopIdx i).env = s.env := rfl
@[simp] theorem setHopIdx_draws (s : State) (i : HopIndex) :
    (s.setHopIdx i).draws = s.draws := rfl
@[simp] theorem setHopIdx_resp (s : State) (i : HopIndex) :
    (s.setHopIdx i).resp = s.resp := rfl

/-! ### setCurErr -/

@[simp] theorem setCurErr_cfg (s : State) (v : Word32) :
    (s.setCurErr v).cfg = s.cfg := rfl
@[simp] theorem setCurErr_hopIdx (s : State) (v : Word32) :
    (s.setCurErr v).hopIdx = s.hopIdx := rfl
@[simp] theorem setCurErr_curErr (s : State) (v : Word32) :
    (s.setCurErr v).curErr = v := rfl
@[simp] theorem setCurErr_lutValid (s : State) (v : Word32) :
    (s.setCurErr v).lutValid = s.lutValid := rfl
@[simp] theorem setCurErr_lutVal (s : State) (v : Word32) :
    (s.setCurErr v).lutVal = s.lutVal := rfl
@[simp] theorem setCurErr_cache (s : State) (v : Word32) :
    (s.setCurErr v).cache = s.cache := rfl
@[simp] theorem setCurErr_cacheCount (s : State) (v : Word32) :
    (s.setCurErr v).cacheCount = s.cacheCount := rfl
@[simp] theorem setCurErr_fault (s : State) (v : Word32) :
    (s.setCurErr v).fault = s.fault := rfl
@[simp] theorem setCurErr_input (s : State) (v : Word32) :
    (s.setCurErr v).input = s.input := rfl
@[simp] theorem setCurErr_env (s : State) (v : Word32) :
    (s.setCurErr v).env = s.env := rfl
@[simp] theorem setCurErr_draws (s : State) (v : Word32) :
    (s.setCurErr v).draws = s.draws := rfl
@[simp] theorem setCurErr_resp (s : State) (v : Word32) :
    (s.setCurErr v).resp = s.resp := rfl

/-! ### writeLut -/

@[simp] theorem writeLut_cfg (s : State) (k : Channel) (v : Word32) :
    (s.writeLut k v).cfg = s.cfg := rfl
@[simp] theorem writeLut_hopIdx (s : State) (k : Channel) (v : Word32) :
    (s.writeLut k v).hopIdx = s.hopIdx := rfl
@[simp] theorem writeLut_curErr (s : State) (k : Channel) (v : Word32) :
    (s.writeLut k v).curErr = s.curErr := rfl
@[simp] theorem writeLut_lutValid (s : State) (k : Channel) (v : Word32) :
    (s.writeLut k v).lutValid = setLutValid s.lutValid k := rfl
@[simp] theorem writeLut_lutVal (s : State) (k : Channel) (v : Word32) :
    (s.writeLut k v).lutVal = s.lutVal.set k.val v := rfl
@[simp] theorem writeLut_cache (s : State) (k : Channel) (v : Word32) :
    (s.writeLut k v).cache = s.cache := rfl
@[simp] theorem writeLut_cacheCount (s : State) (k : Channel) (v : Word32) :
    (s.writeLut k v).cacheCount = s.cacheCount := rfl
@[simp] theorem writeLut_fault (s : State) (k : Channel) (v : Word32) :
    (s.writeLut k v).fault = s.fault := rfl
@[simp] theorem writeLut_input (s : State) (k : Channel) (v : Word32) :
    (s.writeLut k v).input = s.input := rfl
@[simp] theorem writeLut_env (s : State) (k : Channel) (v : Word32) :
    (s.writeLut k v).env = s.env := rfl
@[simp] theorem writeLut_draws (s : State) (k : Channel) (v : Word32) :
    (s.writeLut k v).draws = s.draws := rfl
@[simp] theorem writeLut_resp (s : State) (k : Channel) (v : Word32) :
    (s.writeLut k v).resp = s.resp := rfl

/-! ### insertKey -/

@[simp] theorem insertKey_cfg (s : State) (b : List Byte) :
    (s.insertKey b).cfg = s.cfg := rfl
@[simp] theorem insertKey_hopIdx (s : State) (b : List Byte) :
    (s.insertKey b).hopIdx = s.hopIdx := rfl
@[simp] theorem insertKey_curErr (s : State) (b : List Byte) :
    (s.insertKey b).curErr = s.curErr := rfl
@[simp] theorem insertKey_lutValid (s : State) (b : List Byte) :
    (s.insertKey b).lutValid = s.lutValid := rfl
@[simp] theorem insertKey_lutVal (s : State) (b : List Byte) :
    (s.insertKey b).lutVal = s.lutVal := rfl
@[simp] theorem insertKey_cache (s : State) (b : List Byte) :
    (s.insertKey b).cache = s.cache ++ [b] := rfl
@[simp] theorem insertKey_cacheCount (s : State) (b : List Byte) :
    (s.insertKey b).cacheCount = s.countAfterInsertion := rfl
@[simp] theorem insertKey_fault (s : State) (b : List Byte) :
    (s.insertKey b).fault = s.fault := rfl
@[simp] theorem insertKey_input (s : State) (b : List Byte) :
    (s.insertKey b).input = s.input := rfl
@[simp] theorem insertKey_env (s : State) (b : List Byte) :
    (s.insertKey b).env = s.env := rfl
@[simp] theorem insertKey_draws (s : State) (b : List Byte) :
    (s.insertKey b).draws = s.draws := rfl
@[simp] theorem insertKey_resp (s : State) (b : List Byte) :
    (s.insertKey b).resp = s.resp := rfl

/-! ### clearCache -/

@[simp] theorem clearCache_cfg (s : State) :
    s.clearCache.cfg = s.cfg := rfl
@[simp] theorem clearCache_hopIdx (s : State) :
    s.clearCache.hopIdx = s.hopIdx := rfl
@[simp] theorem clearCache_curErr (s : State) :
    s.clearCache.curErr = s.curErr := rfl
@[simp] theorem clearCache_lutValid (s : State) :
    s.clearCache.lutValid = s.lutValid := rfl
@[simp] theorem clearCache_lutVal (s : State) :
    s.clearCache.lutVal = s.lutVal := rfl
@[simp] theorem clearCache_cache (s : State) :
    s.clearCache.cache = [] := rfl
@[simp] theorem clearCache_cacheCount (s : State) :
    s.clearCache.cacheCount = 0 := rfl
@[simp] theorem clearCache_fault (s : State) :
    s.clearCache.fault = s.fault := rfl
@[simp] theorem clearCache_input (s : State) :
    s.clearCache.input = s.input := rfl
@[simp] theorem clearCache_env (s : State) :
    s.clearCache.env = s.env := rfl
@[simp] theorem clearCache_draws (s : State) :
    s.clearCache.draws = s.draws := rfl
@[simp] theorem clearCache_resp (s : State) :
    s.clearCache.resp = s.resp := rfl

/-! ### respond -/

@[simp] theorem respond_cfg (s : State) (r : Response) :
    (s.respond r).cfg = s.cfg := rfl
@[simp] theorem respond_hopIdx (s : State) (r : Response) :
    (s.respond r).hopIdx = s.hopIdx := rfl
@[simp] theorem respond_curErr (s : State) (r : Response) :
    (s.respond r).curErr = s.curErr := rfl
@[simp] theorem respond_lutValid (s : State) (r : Response) :
    (s.respond r).lutValid = s.lutValid := rfl
@[simp] theorem respond_lutVal (s : State) (r : Response) :
    (s.respond r).lutVal = s.lutVal := rfl
@[simp] theorem respond_cache (s : State) (r : Response) :
    (s.respond r).cache = s.cache := rfl
@[simp] theorem respond_cacheCount (s : State) (r : Response) :
    (s.respond r).cacheCount = s.cacheCount := rfl
@[simp] theorem respond_fault (s : State) (r : Response) :
    (s.respond r).fault = s.fault := rfl
@[simp] theorem respond_input (s : State) (r : Response) :
    (s.respond r).input = s.input := rfl
@[simp] theorem respond_env (s : State) (r : Response) :
    (s.respond r).env = s.env := rfl
@[simp] theorem respond_draws (s : State) (r : Response) :
    (s.respond r).draws = s.draws := rfl
@[simp] theorem respond_resp (s : State) (r : Response) :
    (s.respond r).resp = some r := rfl

/-! ### present -/

@[simp] theorem present_cfg (s : State) (rest : List Event) (e : Env) (d : Draws) :
    (s.present rest e d).cfg = s.cfg := rfl
@[simp] theorem present_hopIdx (s : State) (rest : List Event) (e : Env) (d : Draws) :
    (s.present rest e d).hopIdx = s.hopIdx := rfl
@[simp] theorem present_curErr (s : State) (rest : List Event) (e : Env) (d : Draws) :
    (s.present rest e d).curErr = s.curErr := rfl
@[simp] theorem present_lutValid (s : State) (rest : List Event) (e : Env) (d : Draws) :
    (s.present rest e d).lutValid = s.lutValid := rfl
@[simp] theorem present_lutVal (s : State) (rest : List Event) (e : Env) (d : Draws) :
    (s.present rest e d).lutVal = s.lutVal := rfl
@[simp] theorem present_cache (s : State) (rest : List Event) (e : Env) (d : Draws) :
    (s.present rest e d).cache = s.cache := rfl
@[simp] theorem present_cacheCount (s : State) (rest : List Event) (e : Env) (d : Draws) :
    (s.present rest e d).cacheCount = s.cacheCount := rfl
@[simp] theorem present_fault (s : State) (rest : List Event) (e : Env) (d : Draws) :
    (s.present rest e d).fault = s.fault := rfl
@[simp] theorem present_input (s : State) (rest : List Event) (e : Env) (d : Draws) :
    (s.present rest e d).input = rest := rfl
@[simp] theorem present_env (s : State) (rest : List Event) (e : Env) (d : Draws) :
    (s.present rest e d).env = e := rfl
@[simp] theorem present_draws (s : State) (rest : List Event) (e : Env) (d : Draws) :
    (s.present rest e d).draws = d := rfl
@[simp] theorem present_resp (s : State) (rest : List Event) (e : Env) (d : Draws) :
    (s.present rest e d).resp = s.resp := rfl

/-! ### raiseFault -/

@[simp] theorem raiseFault_cfg (s : State) (c : FaultCode) :
    (s.raiseFault c).cfg = s.cfg := rfl
@[simp] theorem raiseFault_hopIdx (s : State) (c : FaultCode) :
    (s.raiseFault c).hopIdx = s.hopIdx := rfl
@[simp] theorem raiseFault_curErr (s : State) (c : FaultCode) :
    (s.raiseFault c).curErr = s.curErr := rfl
@[simp] theorem raiseFault_lutValid (s : State) (c : FaultCode) :
    (s.raiseFault c).lutValid = s.lutValid := rfl
@[simp] theorem raiseFault_lutVal (s : State) (c : FaultCode) :
    (s.raiseFault c).lutVal = s.lutVal := rfl
@[simp] theorem raiseFault_cache (s : State) (c : FaultCode) :
    (s.raiseFault c).cache = s.cache := rfl
@[simp] theorem raiseFault_cacheCount (s : State) (c : FaultCode) :
    (s.raiseFault c).cacheCount = s.cacheCount := rfl
@[simp] theorem raiseFault_fault (s : State) (c : FaultCode) :
    (s.raiseFault c).fault = c := rfl
@[simp] theorem raiseFault_input (s : State) (c : FaultCode) :
    (s.raiseFault c).input = s.input := rfl
@[simp] theorem raiseFault_env (s : State) (c : FaultCode) :
    (s.raiseFault c).env = s.env := rfl
@[simp] theorem raiseFault_draws (s : State) (c : FaultCode) :
    (s.raiseFault c).draws = s.draws := rfl
@[simp] theorem raiseFault_resp (s : State) (c : FaultCode) :
    (s.raiseFault c).resp = some (faultResponse c) := rfl

/-! ### answerFaulted -/

@[simp] theorem answerFaulted_cfg (s : State) :
    s.answerFaulted.cfg = s.cfg := rfl
@[simp] theorem answerFaulted_hopIdx (s : State) :
    s.answerFaulted.hopIdx = s.hopIdx := rfl
@[simp] theorem answerFaulted_curErr (s : State) :
    s.answerFaulted.curErr = s.curErr := rfl
@[simp] theorem answerFaulted_lutValid (s : State) :
    s.answerFaulted.lutValid = s.lutValid := rfl
@[simp] theorem answerFaulted_lutVal (s : State) :
    s.answerFaulted.lutVal = s.lutVal := rfl
@[simp] theorem answerFaulted_cache (s : State) :
    s.answerFaulted.cache = s.cache := rfl
@[simp] theorem answerFaulted_cacheCount (s : State) :
    s.answerFaulted.cacheCount = s.cacheCount := rfl
@[simp] theorem answerFaulted_fault (s : State) :
    s.answerFaulted.fault = s.fault := rfl
@[simp] theorem answerFaulted_input (s : State) :
    s.answerFaulted.input = s.input := rfl
@[simp] theorem answerFaulted_env (s : State) :
    s.answerFaulted.env = s.env := rfl
@[simp] theorem answerFaulted_draws (s : State) :
    s.answerFaulted.draws = s.draws := rfl
@[simp] theorem answerFaulted_resp (s : State) :
    s.answerFaulted.resp = some (faultedResponse s.fault) := rfl

/-! ### resetBlock -/

@[simp] theorem resetBlock_cfg (s : State) :
    s.resetBlock.cfg = s.cfg := rfl
@[simp] theorem resetBlock_hopIdx (s : State) :
    s.resetBlock.hopIdx = 0 := rfl
@[simp] theorem resetBlock_curErr (s : State) :
    s.resetBlock.curErr = 0 := rfl
@[simp] theorem resetBlock_lutValid (s : State) :
    s.resetBlock.lutValid = 0 := rfl
@[simp] theorem resetBlock_lutVal (s : State) :
    s.resetBlock.lutVal = Vector.replicate 9 0 := rfl
@[simp] theorem resetBlock_cache (s : State) :
    s.resetBlock.cache = [] := rfl
@[simp] theorem resetBlock_cacheCount (s : State) :
    s.resetBlock.cacheCount = 0 := rfl
@[simp] theorem resetBlock_fault (s : State) :
    s.resetBlock.fault = .noFault := rfl
@[simp] theorem resetBlock_input (s : State) :
    s.resetBlock.input = s.input := rfl
@[simp] theorem resetBlock_env (s : State) :
    s.resetBlock.env = s.env := rfl
@[simp] theorem resetBlock_draws (s : State) :
    s.resetBlock.draws = s.draws := rfl
@[simp] theorem resetBlock_resp (s : State) :
    s.resetBlock.resp = none := rfl

end Sys2Proof.Machine.State
end

