-- ==== Sys2Proof/Laws/Ops.lean ====
section
/-! SUPPORT. What each shared operation can do, said once. -/

namespace Sys2Proof.Machine

/-! ### The run of a command -/

theorem runCommand_of_running {s : State} (h : s.fault = .noFault) (e : Effect) : s.runCommand e = s.finish e := by
  simp [State.runCommand, h]

theorem runCommand_of_faulted {s : State} (h : s.fault ≠ .noFault) (e : Effect) :
    s.runCommand e = s.answerFaulted := by
  simp [State.runCommand, h]

@[simp] theorem finish_error (s : State) (c : FaultCode) : s.finish (.error c) = s.raiseFault c := rfl

@[simp] theorem finish_ok (s t : State) (r : Response) : s.finish (.ok (t, r)) = t.respond r := rfl

/-- Everything the run of a command can leave: the FAULTED answer, a fault, or the effect's state and response. -/
theorem runCommand_cases (s : State) (e : Effect) :
    (s.fault ≠ .noFault ∧ s.runCommand e = s.answerFaulted) ∨
    (s.fault = .noFault ∧ ∃ c, e = .error c ∧ s.runCommand e = s.raiseFault c) ∨
    (s.fault = .noFault ∧ ∃ t r, e = .ok (t, r) ∧ s.runCommand e = t.respond r) := by
  by_cases h : s.fault = .noFault
  · right
    rw [runCommand_of_running h]
    match e with
    | .error c => exact .inl ⟨h, c, rfl, rfl⟩
    | .ok (t, r) => exact .inr ⟨h, t, r, rfl, rfl⟩
  · exact .inl ⟨h, runCommand_of_faulted h e⟩

/-! ### Flags and operands -/

@[simp] theorem lutValidBit_setLutValid (v : BitVec 9) (k j : Channel) :
    lutValidBit (setLutValid v k) j = (lutValidBit v j || decide (j = k)) := by
  simp only [lutValidBit, setLutValid, BitVec.getLsbD_or, BitVec.getLsbD_twoPow]
  congr 1
  have := k.isLt
  simp [Fin.ext_iff, eq_comm]

@[simp] theorem lutValidBit_zero (k : Channel) : lutValidBit 0#9 k = false := by simp [lutValidBit]

theorem fitsS32_iff (v : Int) : fitsS32 v = true ↔ -2147483648 ≤ v ∧ v ≤ 2147483647 := by simp [fitsS32]

/-- A sum that fits is stored exactly. -/
theorem toInt_ofInt_of_fits {v : Int} (h : fitsS32 v = true) : (BitVec.ofInt 32 v).toInt = v := by
  rw [fitsS32_iff] at h
  rw [BitVec.toInt_ofInt]
  exact Int.bmod_eq_of_le (by omega) (by omega)

theorem channelOperand_of_lt {ch : BitVec 4} (h : ch.toNat < 9) : channelOperand ch = some ⟨ch.toNat, h⟩ := by
  simp [channelOperand, h]

theorem channelOperand_of_ge {ch : BitVec 4} (h : 9 ≤ ch.toNat) : channelOperand ch = none := by
  simp [channelOperand, Nat.not_lt.mpr h]

/-! ### CACHE_COUNT -/

theorem cacheSize_of_fits {s : State} (h : s.cache.length < 4294967296) : s.cacheSize = s.cacheCount.toNat := by
  simp [State.cacheSize, h]

theorem cacheSize_of_large {s : State} (h : ¬ s.cache.length < 4294967296) : s.cacheSize = s.cache.length := by
  simp [State.cacheSize, h]

theorem countAfterInsertion_of_fits {s : State} (h : s.cache.length + 1 < 4294967296) :
    s.countAfterInsertion = s.cacheCount + 1 := by
  simp [State.countAfterInsertion, h]

theorem cacheSize_congr {s t : State} (hlen : s.cache.length = t.cache.length) (hc : s.cacheCount = t.cacheCount) :
    s.cacheSize = t.cacheSize := by
  simp [State.cacheSize, hlen, hc]

theorem countAfterInsertion_congr {s t : State} (hlen : s.cache.length = t.cache.length)
    (hc : s.cacheCount = t.cacheCount) : s.countAfterInsertion = t.countAfterInsertion := by
  simp [State.countAfterInsertion, hlen, hc]

/-! ### The operations of the units -/

/-- DESCRIBE leaves either the state as it was or CUR_ERR loaded from a valid entry. -/
theorem describe_cases (s : State) :
    (lutValidBit s.lutValid s.currentChannel = true ∧
      describe s = (s.setCurErr s.lutVal[s.currentChannel],
        { channel := s.currentChannel
          freq := s.cfg.channelTable[s.currentChannel]
          err := s.lutVal[s.currentChannel] })) ∨
    (lutValidBit s.lutValid s.currentChannel = false ∧
      describe s = (s,
        { channel := s.currentChannel
          freq := s.cfg.channelTable[s.currentChannel]
          err := s.curErr })) := by
  cases h : lutValidBit s.lutValid s.currentChannel
  · exact .inr ⟨rfl, by simp [describe, h]⟩
  · exact .inl ⟨rfl, by simp [describe, h]⟩

/-- TRACK_UPDATE either overflows or writes the exact sum to CUR_ERR and to the entry. -/
theorem trackUpdate_cases (k : Channel) (delta : Int) (s : State) :
    (fitsS32 (s.curErr.toInt + delta) = false ∧ trackUpdate k delta s = .error .errOverflow) ∨
    (fitsS32 (s.curErr.toInt + delta) = true ∧
      trackUpdate k delta s = .ok ((s.setCurErr (BitVec.ofInt 32 (s.curErr.toInt + delta))).writeLut k
        (BitVec.ofInt 32 (s.curErr.toInt + delta)))) := by
  cases h : fitsS32 (s.curErr.toInt + delta)
  · exact .inl ⟨rfl, by simp [trackUpdate, h]⟩
  · exact .inr ⟨rfl, by simp [trackUpdate, h]⟩

/-- The ways steps 4 to 6 of PACKET can end. -/
theorem acceptPacket_cases (b : List Byte) (sidx : Word32) (s : State) :
    (∃ c, measureError s.cfg s.env sidx.toNat = .error c ∧ acceptPacket b sidx s = .error c) ∨
    (∃ e, measureError s.cfg s.env sidx.toNat = .ok e ∧ fitsS32 (s.curErr.toInt + e) = false ∧
      acceptPacket b sidx s = .error .errOverflow) ∨
    (∃ e, measureError s.cfg s.env sidx.toNat = .ok e ∧ fitsS32 (s.curErr.toInt + e) = true ∧
      acceptPacket b sidx s = .ok ((s.setCurErr (BitVec.ofInt 32 (s.curErr.toInt + e))).writeLut s.currentChannel
        (BitVec.ofInt 32 (s.curErr.toInt + e)), messageResponse (frame b sidx))) := by
  unfold acceptPacket sampleIndexOperand
  cases hm : measureError s.cfg s.env sidx.toNat with
  | error c => exact .inl ⟨c, rfl, rfl⟩
  | ok e =>
    rcases trackUpdate_cases s.currentChannel e s with ⟨hf, ht⟩ | ⟨hf, ht⟩
    · exact .inr (.inl ⟨e, rfl, hf, by simp [ht]⟩)
    · exact .inr (.inr ⟨e, rfl, hf, by simp [ht]⟩)

/-- The ways steps 2 to 6 of PACKET can end: a duplicate, a full cache, a failed checksum, or steps 4 to 6. -/
theorem decodePacket_cases (b : List Byte) (sidx : Word32) (s : State) :
    (b ∈ s.cache ∧ decodePacket b sidx s = .ok (s, droppedResponse)) ∨
    (b ∉ s.cache ∧ s.cacheSize = s.cfg.dedupDepth ∧ decodePacket b sidx s = .error .cacheFull) ∨
    (b ∉ s.cache ∧ s.cacheSize ≠ s.cfg.dedupDepth ∧ checksumPasses s.cfg b = false ∧
      decodePacket b sidx s = .ok (s.insertKey b, droppedResponse)) ∨
    (b ∉ s.cache ∧ s.cacheSize ≠ s.cfg.dedupDepth ∧ checksumPasses s.cfg b = true ∧
      decodePacket b sidx s = acceptPacket b sidx (s.insertKey b)) := by
  unfold decodePacket
  by_cases hb : b ∈ s.cache
  · exact .inl ⟨hb, by simp [hb]⟩
  · by_cases hc : s.cacheSize = s.cfg.dedupDepth
    · exact .inr (.inl ⟨hb, hc, by simp [hb, hc]⟩)
    · cases hk : checksumPasses s.cfg b
      · exact .inr (.inr (.inl ⟨hb, hc, rfl, by simp [hb, hc]⟩))
      · exact .inr (.inr (.inr ⟨hb, hc, rfl, by simp [hb, hc]⟩))

theorem measureError_traceBounds {c : Config} {env : Env} {sidx : Nat}
    (h : env.trace.length < sidx + windowEnd * c.symbolLen) : measureError c env sidx = .error .traceBounds := by
  simp [measureError, h]

@[simp] theorem revPkt_length (n : Nat) (pkt : List Byte) : (revPkt n pkt).length = n := by simp [revPkt]

end Sys2Proof.Machine
end

