-- ==== Sys2Proof/Laws/Cache.lean ====
section
/-! SUPPORT. The operations on CACHE and the LUT keep the invariant of the block. -/

namespace Sys2Proof.Machine

/-- In the runs of the block the number held against DEDUP_DEPTH is the size of CACHE. -/
theorem State.Inv.cacheSize_eq {s : State} (h : s.Inv) : s.cacheSize = s.cache.length := by
  by_cases hf : s.cache.length < 4294967296
  · rw [cacheSize_of_fits hf, h.count_eq_length hf]
  · exact cacheSize_of_large hf

/-- The insertion of a new key into a cache that is not full keeps the invariant. -/
theorem State.Inv.insertKey {s : State} (h : s.Inv) {b : List Byte} (hnew : b ∉ s.cache)
    (hroom : s.cacheSize ≠ s.cfg.dedupDepth) (hlen : b.length = s.cfg.pktLen) : (s.insertKey b).Inv where
  config_wf := h.config_wf
  count_eq_length := by
    intro hf
    rw [State.insertKey_cache, List.length_append, List.length_singleton] at hf ⊢
    have hc := h.count_eq_length (by omega)
    rw [State.insertKey_cacheCount, countAfterInsertion_of_fits hf, BitVec.toNat_add]
    have : (1 : Word32).toNat = 1 := rfl
    omega
  within_depth := by
    have hw := h.within_depth
    rw [h.cacheSize_eq] at hroom
    simp only [State.insertKey_cfg, State.insertKey_cache, List.length_append, List.length_singleton]
    omega
  no_repeats := by
    simp only [State.insertKey_cache]
    exact List.nodup_append.mpr ⟨h.no_repeats, by simp, fun a ha b' hb' => by
      rw [List.mem_singleton] at hb'
      exact fun hab => hnew (hb' ▸ hab ▸ ha)⟩
  key_length := by
    intro k hk
    rcases List.mem_append.mp hk with hk | hk
    · exact h.key_length k hk
    · exact (List.mem_singleton.mp hk).symm ▸ hlen

/-- The empty cache meets the invariant. -/
theorem State.Inv.of_empty {s : State} (hwf : s.cfg.wf = true) (hc : s.cache = []) (hn : s.cacheCount = 0) : s.Inv where
  config_wf := hwf
  count_eq_length := by simp [hc, hn]
  within_depth := by simp [hc]
  no_repeats := by simp [hc]
  key_length := by simp [hc]

/-- A write that leaves the configuration and the cache alone keeps the invariant. -/
theorem State.Inv.of_same {s t : State} (h : s.Inv) (hcfg : t.cfg = s.cfg) (hc : t.cache = s.cache)
    (hn : t.cacheCount = s.cacheCount) : t.Inv where
  config_wf := hcfg ▸ h.config_wf
  count_eq_length := by rw [hn, hc]; exact h.count_eq_length
  within_depth := by rw [hcfg, hc]; exact h.within_depth
  no_repeats := hc ▸ h.no_repeats
  key_length := by rw [hcfg, hc]; exact h.key_length

end Sys2Proof.Machine
end

