-- ==== Sys2Proof/Laws/Config.lean ====
section
/-! SUPPORT. The configuration of `State.reset` is well formed, whatever its OPEN values are (R28). -/

namespace Sys2Proof.Config

theorem build_hopPattern_nodup : build.hopPattern.toList.Nodup := by
  simp [build, EmbeddingLike.apply_eq_iff_eq]

theorem build_wf : build.wf = true := by
  have hid : build.cfgId ≤ 68719 := Nat.lt_succ_iff.mp openCfgId.isLt
  have hlow : 5 ≤ build.pktLen ∧ 1 ≤ build.symbolLen ∧ 1 ≤ build.sampleRate ∧ 1 ≤ build.dedupDepth :=
    ⟨Nat.le_add_left _ _, Nat.le_add_left _ _, Nat.le_add_left _ _, Nat.le_add_left _ _⟩
  simp [wf, build_hopPattern_nodup, hid, hlow]

end Sys2Proof.Config
end

