-- ==== Sys2Proof/Laws/Float64.lean ====
section
/-! SUPPORT. Rounding: the shared operation of `fadd`, `fmul`, `fdiv` and `f64(n)` gives the nearest binary64 value,
ties to even (R11). -/

namespace Sys2Proof.Machine

/-- The magnitude of a finite pattern in units of `2^-1074`, from its exponent and fraction fields together. -/
def magnitudeUnits (M : ℕ) : ℕ := if M < 2^52 then M else (M % 2^52 + 2^52) * 2^(M/2^52 - 1)

set_option exponentiation.threshold 4096 in
/-- What a pattern stands for, from its sign bit and its other 63 bits. -/
theorem unpackF64_of_magnitude (z : F64) :
    (isFinite z = true ↔ z.toNat % 2^63 < 2047 * 2^52) ∧
    (z.toNat % 2^63 < 2047 * 2^52 → ∃ m e, unpackF64 z = .finite (z.getLsbD 63) m e ∧
      (m:ℚ) * (2:ℚ)^e = magnitudeUnits (z.toNat % 2^63) * (2:ℚ)^(-1074:ℤ)) ∧
    (z.toNat % 2^63 = 2047 * 2^52 → unpackF64 z = .inf (z.getLsbD 63)) := by
  have hz := z.isLt
  simp only [isFinite, unpackF64, BitVec.extractLsb'_toNat, Nat.shiftRight_eq_div_pow]
  generalize z.getLsbD 63 = neg
  generalize hM : z.toNat % 2^63 = M
  have e1 : z.toNat / 2^52 % 2^11 = M / 2^52 := by omega
  have e2 : z.toNat / 2^0 % 2^52 = M % 2^52 := by omega
  rw [e1, e2]
  have hMl : M < 2^63 := by omega
  refine ⟨?_, ?_, ?_⟩
  · split <;> rename_i h <;> split at h <;> (try split at h) <;> simp_all <;> omega
  · intro hlt
    rw [if_neg (by omega)]
    by_cases h0 : M / 2^52 = 0
    · rw [if_pos h0]
      refine ⟨_, _, rfl, ?_⟩
      rw [magnitudeUnits, if_pos (by omega), Nat.mod_eq_of_lt (by omega)]
    · rw [if_neg h0]
      refine ⟨_, _, rfl, ?_⟩
      rw [magnitudeUnits, if_neg (by omega)]
      obtain ⟨k, hk⟩ : ∃ k, M / 2^52 = k + 1 := ⟨M/2^52 - 1, by omega⟩
      rw [hk, show ((k+1:ℕ):ℤ) - 1075 = k + (-1074) by push_cast; ring, zpow_add₀ (by norm_num)]
      push_cast
      rw [zpow_natCast, mul_assoc]
  · intro h
    rw [if_pos (by omega), if_pos (by omega)]

theorem rationalOf_of_finite {z : F64} (h : isFinite z = true) :
    rationalOf z = (if z.getLsbD 63 then -1 else 1) * magnitudeUnits (z.toNat % 2^63) * (2:ℚ)^(-1074:ℤ) := by
  obtain ⟨h1, h2, -⟩ := unpackF64_of_magnitude z
  obtain ⟨m, e, he, hm⟩ := h2 (h1.mp h)
  rw [rationalOf, he]
  simp only [mul_assoc, hm]

/-- The pattern `roundF64` builds stands for `R` units of `2^T`, a carry out of the fraction included. -/
theorem magnitudeUnits_of_rounded {T R : ℕ} (hR : R ≤ 2^53) (hT : T = 0 ∨ 2^52 ≤ R) :
    magnitudeUnits (T * 2^52 + R) = R * 2^T := by
  unfold magnitudeUnits
  by_cases h1 : R < 2^52
  · obtain rfl : T = 0 := by omega
    rw [if_pos (by omega)]; simp
  · rw [if_neg (by omega)]
    by_cases h2 : R = 2^53
    · subst h2
      have : (T * 2^52 + 2^53) % 2^52 = 0 := by omega
      have h3 : (T * 2^52 + 2^53) / 2^52 - 1 = T + 1 := by omega
      rw [this, h3, pow_succ]; ring
    · have : (T * 2^52 + R) % 2^52 = R - 2^52 := by omega
      have h3 : (T * 2^52 + R) / 2^52 - 1 = T := by omega
      rw [this, h3]; congr 1; omega

/-- A finite magnitude is a whole number of units of `2^T` or lies below `2^52` of them. -/
theorem magnitudeUnits_coarse (M T : ℕ) : 2^T ∣ magnitudeUnits M ∨ magnitudeUnits M < 2^(52+T) := by
  unfold magnitudeUnits
  split
  · right; calc M < 2^52 := ‹_›
      _ ≤ _ := Nat.pow_le_pow_right (by norm_num) (by omega)
  · by_cases h : T ≤ M/2^52 - 1
    · left; exact Dvd.dvd.mul_left (Nat.pow_dvd_pow 2 h) _
    · right
      obtain ⟨U, rfl⟩ : ∃ U, T = U + 1 := ⟨T - 1, by omega⟩
      have h1 : 2^(M/2^52 - 1) ≤ 2^U := Nat.pow_le_pow_right (by norm_num) (by omega)
      have h2 : M % 2^52 + 2^52 < 2^53 := by omega
      calc _ < 2^53 * 2^(M/2^52 - 1) := Nat.mul_lt_mul_of_pos_right h2 (by positivity)
        _ ≤ 2^53 * 2^U := Nat.mul_le_mul_left _ h1
        _ = 2^(52 + (U+1)) := by rw [← pow_add]; congr 1; omega

theorem scaled_ratio (num den : ℕ) (k : ℤ) :
    (num:ℚ) * 2^(-k).toNat / (den * 2^k.toNat) = (num:ℚ)/den / (2:ℚ)^k := by
  rcases le_total 0 k with h | h
  · obtain ⟨n, rfl⟩ := Int.eq_ofNat_of_zero_le h
    simp [div_div]
  · obtain ⟨n, hn⟩ := Int.eq_ofNat_of_zero_le (Int.neg_nonneg.mpr h)
    obtain rfl : k = -(n:Int) := by omega
    simp; ring

/-- `ulpExponent` gives the unit in which the number has 53 significant bits, or the least unit there is. -/
theorem ulpExponent_spec {num den : ℕ} (hn : 0 < num) (hd : 0 < den) (e : ℤ) :
    let t := ulpExponent num den e
    let x := (num:ℚ)/den * (2:ℚ)^e
    t ≥ -1074 ∧ x < (2:ℚ)^(t+53) ∧ (-1074 < t → (2:ℚ)^(t+52) ≤ x) := by
  intro t x
  have hx : 0 < x := by positivity
  have hdq : (0:ℚ) < den := by exact_mod_cast hd
  have n1 : (2:ℚ)^((num.log2:ℕ):ℤ) ≤ num := by rw [zpow_natCast]; exact_mod_cast Nat.log2_self_le hn.ne'
  have n2 : (num:ℚ) < (2:ℚ)^((num.log2:ℕ):ℤ) * 2 := by
    rw [zpow_natCast, ← pow_succ]; exact_mod_cast Nat.lt_log2_self
  have d1 : (2:ℚ)^((den.log2:ℕ):ℤ) ≤ den := by rw [zpow_natCast]; exact_mod_cast Nat.log2_self_le hd.ne'
  have d2 : (den:ℚ) < (2:ℚ)^((den.log2:ℕ):ℤ) * 2 := by
    rw [zpow_natCast, ← pow_succ]; exact_mod_cast Nat.lt_log2_self
  obtain ⟨k, hk⟩ : ∃ k : ℤ, k = (num.log2:ℤ) - den.log2 := ⟨_, rfl⟩
  have hkp : (2:ℚ)^k = (2:ℚ)^((num.log2:ℕ):ℤ) / (2:ℚ)^((den.log2:ℕ):ℤ) := by
    rw [hk, zpow_sub₀ (by norm_num)]
  have hp : (0:ℚ) < (2:ℚ)^((num.log2:ℕ):ℤ) := by positivity
  have hp' : (0:ℚ) < (2:ℚ)^((den.log2:ℕ):ℤ) := by positivity
  obtain ⟨f, hf, f1, f2⟩ : ∃ f : ℤ, t = max (e + f - 52) (-1074) ∧
      (2:ℚ)^f ≤ (num:ℚ)/den ∧ (num:ℚ)/den < (2:ℚ)^f * 2 := by
    refine ⟨_, rfl, ?_, ?_⟩
    · split
      · rename_i h
        have h' : (den:ℚ) * 2^k.toNat ≤ num * 2^(-k).toNat := by rw [← hk] at h; exact_mod_cast h
        have := scaled_ratio num den k
        rw [← hk, ← one_le_div (by positivity), ← this, one_le_div (by positivity)]
        exact h'
      · rw [show (num.log2:ℤ) - den.log2 - 1 = k - 1 by rw [hk], zpow_sub₀ (by norm_num), hkp, zpow_one,
          le_div_iff₀ hdq, div_div, div_mul_eq_mul_div, div_le_iff₀ (by positivity)]
        nlinarith
    · split
      · rw [show (num.log2:ℤ) - den.log2 = k by rw [hk], hkp, div_mul_eq_mul_div, div_lt_div_iff₀ hdq hp']
        nlinarith
      · rename_i h
        have h' : (num:ℚ) * 2^(-k).toNat < (den:ℚ) * 2^k.toNat := by rw [← hk] at h; exact_mod_cast not_le.mp h
        have := scaled_ratio num den k
        rw [show (num.log2:ℤ) - den.log2 - 1 = k - 1 by rw [hk], zpow_sub₀ (by norm_num), zpow_one,
          div_mul_cancel₀ _ (by norm_num)]
        rw [← div_lt_one (by positivity), ← this, div_lt_one (by positivity)]
        exact h'
  have x1 : (2:ℚ)^(e+f) ≤ x := by
    rw [zpow_add₀ (by norm_num), mul_comm]
    exact mul_le_mul_of_nonneg_right f1 (by positivity)
  have x2 : x < (2:ℚ)^(e+f+1) := by
    rw [zpow_add₀ (by norm_num), zpow_add₀ (by norm_num), zpow_one, mul_assoc, mul_comm]
    exact mul_lt_mul_of_pos_right f2 (by positivity)
  refine ⟨by omega, lt_of_lt_of_le x2 (zpow_le_zpow_right₀ (by norm_num) (by omega)), fun h => ?_⟩
  rw [show t + 52 = e + f by omega]; exact x1

/-- `roundToUnit` is the nearest whole number of units, ties to even. -/
theorem roundToUnit_spec {num den : ℕ} (hd : 0 < den) (e t : ℤ) :
    let y := (num:ℚ)/den * (2:ℚ)^e / (2:ℚ)^t
    let R : ℚ := roundToUnit num den e t
    |R - y| ≤ 1/2 ∧ (|R - y| = 1/2 → roundToUnit num den e t % 2 = 0) := by
  intro y R
  have hy : y = (num * 2^(e-t).toNat : ℕ) / (den * 2^(t-e).toNat : ℕ) := by
    have := scaled_ratio num den (t-e)
    push_cast
    rw [show e - t = -(t-e) by ring, this, zpow_sub₀ (by norm_num)]
    simp only [y]; field_simp
  have hD : 0 < den * 2^(t-e).toNat := by positivity
  have hR : R = (roundToUnit num den e t : ℕ) := rfl
  rw [hR, hy]
  unfold roundToUnit
  generalize num * 2^(e-t).toNat = n
  generalize hDD : den * 2^(t-e).toNat = d at hD
  have hdm := Nat.div_add_mod n d
  have hml := Nat.mod_lt n hD
  simp only []
  generalize n / d = q at *
  generalize n % d = r at *
  have hdq : (0:ℚ) < d := by exact_mod_cast hD
  have hn : (n:ℚ)/d = q + r/d := by
    rw [← hdm]; push_cast; field_simp
  rw [hn]
  split
  · rename_i h
    have e1 : ((q+1:ℕ):ℚ) - (q + r/d) = 1 - r/d := by push_cast; ring
    have h1 : (r:ℚ)/d < 1 := by rw [div_lt_one hdq]; exact_mod_cast hml
    have h2 : (1:ℚ)/2 ≤ r/d := by
      rw [div_le_div_iff₀ (by norm_num) hdq]; exact_mod_cast (by omega : 1 * d ≤ r * 2)
    rw [e1, abs_of_pos (by linarith)]
    refine ⟨by linarith, fun hh => ?_⟩
    have : (r:ℚ)/d = 1/2 := by linarith
    rw [div_eq_div_iff (by positivity) (by norm_num)] at this
    have : r * 2 = 1 * d := by exact_mod_cast this
    omega
  · rename_i h
    have e1 : ((q:ℕ):ℚ) - (q + r/d) = -(r/d) := by ring
    have h2 : (r:ℚ)/d ≤ 1/2 := by
      rw [div_le_div_iff₀ hdq (by norm_num)]; exact_mod_cast (by omega : r * 2 ≤ 1 * d)
    rw [e1, abs_neg, abs_of_nonneg (by positivity)]
    refine ⟨h2, fun hh => ?_⟩
    rw [div_eq_div_iff (by positivity) (by norm_num)] at hh
    have : r * 2 = 1 * d := by exact_mod_cast hh
    omega

theorem fields_of_signed_magnitude (neg : Bool) {M : ℕ} (h : M < 2^63) :
    (BitVec.ofNat 64 (signBit neg + M)).toNat % 2^63 = M ∧ (BitVec.ofNat 64 (signBit neg + M)).getLsbD 63 = neg ∧
    (BitVec.ofNat 64 (signBit neg + M)).getLsbD 0 = decide (M % 2 = 1) := by
  rw [BitVec.toNat_ofNat]
  simp only [BitVec.getLsbD_ofNat, Nat.testBit_eq_decide_div_mod_eq]
  cases neg
  · simp only [signBit, Bool.false_eq_true, if_false]
    refine ⟨by omega, by simp; omega, by simp⟩
  · simp only [signBit, if_true]
    refine ⟨by omega, by simp; omega, by simp; omega⟩

/-- The sign a sign bit stands for. -/
def signRat (b : Bool) : ℚ := if b then -1 else 1

/-- The nearest whole number of units is the nearest of all numbers that are whole numbers of units or small. -/
theorem nearest_among_units {T R : ℕ} {y : ℚ} (hR52 : 0 < T → 2^52 ≤ y) (h1 : |(R:ℚ) - y| ≤ 1/2)
    (h2 : |(R:ℚ) - y| = 1/2 → R % 2 = 0)
   (b : Bool) (N : ℕ) (hN : 2^T ∣ N ∨ N < 2^(52+T)) :
    |(R:ℚ) - y| * 2^T ≤ |signRat b * N - y * 2^T| ∧
      (signRat b * N ≠ R * 2^T → |signRat b * N - y*2^T| = |(R:ℚ) - y| * 2^T → R % 2 = 0) := by
  have hP : (0:ℚ) < 2^T := by positivity
  by_cases hdv : 2^T ∣ N
  · obtain ⟨j, rfl⟩ := hdv
    obtain ⟨J, hJ⟩ : ∃ J : ℤ, (J:ℚ) = signRat b * j := by
      cases b
      · exact ⟨j, by simp [signRat]⟩
      · exact ⟨-j, by simp [signRat]⟩
    have e1 : signRat b * ((2^T * j : ℕ):ℚ) = J * 2^T := by rw [hJ]; push_cast; ring
    rw [e1, ← sub_mul, abs_mul, abs_of_pos hP]
    by_cases hJR : J = R
    · subst hJR; exact ⟨by simp, fun h => absurd (by simp) h⟩
    · have hd : (1:ℚ) ≤ |(J:ℚ) - R| := by exact_mod_cast Int.one_le_abs (sub_ne_zero.mpr hJR)
      have htri : |(J:ℚ) - R| ≤ |(J:ℚ) - y| + |(R:ℚ) - y| := by
        rw [abs_sub_comm (R:ℚ) y]; exact abs_sub_le _ _ _
      refine ⟨mul_le_mul_of_nonneg_right (by linarith) hP.le, fun _ heq => ?_⟩
      have := mul_right_cancel₀ hP.ne' heq
      exact h2 (by linarith)
  · have hT : 0 < T := by
      rcases Nat.eq_zero_or_pos T with rfl | h
      · exact absurd (by simp) hdv
      · exact h
    have hy52 := hR52 hT
    have hlt : N < 2^(52+T) := hN.resolve_left hdv
    have hNq : (N:ℚ) < 2^52 * 2^T := by rw [← pow_add]; exact_mod_cast hlt
    have hz : signRat b * N < 2^52 * 2^T := by
      have : (0:ℚ) ≤ N := by positivity
      cases b <;> simp [signRat] <;> linarith
    have hyT : 2^52 * 2^T ≤ y * 2^T := mul_le_mul_of_nonneg_right hy52 hP.le
    have hnear : |(R:ℚ) - y| ≤ y - 2^52 := by
      by_cases hR : R = 2^52
      · have : (R:ℚ) = 2^52 := by rw [hR]; norm_num
        rw [this, abs_sub_comm, abs_of_nonneg (by linarith)]
      · rcases lt_or_gt_of_ne hR with h | h
        · have : (R:ℚ) ≤ 2^52 - 1 := by
            have : R + 1 ≤ 2^52 := h
            have : (R:ℚ) + 1 ≤ 2^52 := by exact_mod_cast this
            linarith
          have := neg_abs_le ((R:ℚ) - y)
          linarith
        · have : (2:ℚ)^52 + 1 ≤ R := by exact_mod_cast h
          have := le_abs_self ((R:ℚ) - y)
          linarith
    have hlt2 : |(R:ℚ) - y| * 2^T < |signRat b * N - y * 2^T| := by
      rw [abs_sub_comm (signRat b * N), abs_of_pos (show 0 < y * 2^T - signRat b * N by linarith)]
      have := mul_le_mul_of_nonneg_right hnear hP.le
      rw [sub_mul] at this
      linarith
    exact ⟨hlt2.le, fun _ h => absurd h hlt2.ne'⟩

theorem two_zpow_add_970 (n : ℕ) : (2:ℚ)^((n:ℤ) + 970) = 2^n * (2:ℚ)^(970:ℤ) := by
  rw [zpow_add₀ (by norm_num), zpow_natCast]

set_option exponentiation.threshold 4096 in
theorem roundF64_pos (neg : Bool) {num den : ℕ} (hn : 0 < num) (hd : 0 < den) (e : ℤ) :
    IsRoundedToNearest (roundF64 neg num den e) (signRat neg * ((num:ℚ)/den * (2:ℚ)^e)) := by
  obtain ⟨t1, t2, t3⟩ := ulpExponent_spec hn hd e
  have hrs := roundToUnit_spec hd e (ulpExponent num den e) (num := num)
  unfold roundF64
  rw [if_neg hn.ne']
  simp only []
  generalize ulpExponent num den e = t at *
  generalize roundToUnit num den e t = R at *
  obtain ⟨T, hT⟩ : ∃ T : ℕ, t = T + (-1074) := ⟨(t+1074).toNat, by omega⟩
  have hTT : (t + 1074).toNat = T := by omega
  rw [hTT]
  generalize hx : (num:ℚ)/den * (2:ℚ)^e = x at *
  have hx0 : 0 < x := by rw [← hx]; positivity
  simp only [] at hrs
  obtain ⟨y, hy⟩ : ∃ y, y = x / (2:ℚ)^t := ⟨_, rfl⟩
  rw [← hy] at hrs
  obtain ⟨h1, h2⟩ := hrs
  have hpt : (0:ℚ) < (2:ℚ)^t := by positivity
  have hxy : x = y * (2:ℚ)^t := by rw [hy, div_mul_cancel₀ _ hpt.ne']
  have hy0 : 0 < y := by rw [hy]; positivity
  have hy53 : y < 2^53 := by
    rw [hxy, zpow_add₀ (by norm_num), mul_comm] at t2
    exact_mod_cast lt_of_mul_lt_mul_left t2 hpt.le
  have hy52 : 0 < T → 2^52 ≤ y := by
    intro h
    have := t3 (by omega)
    rw [hxy, zpow_add₀ (by norm_num), mul_comm y] at this
    exact_mod_cast le_of_mul_le_mul_left this hpt
  have hlo := neg_abs_le ((R:ℚ) - y)
  have hhi := le_abs_self ((R:ℚ) - y)
  have hR53 : R ≤ 2^53 := by
    by_contra h
    have : (2:ℚ)^53 + 1 ≤ R := by exact_mod_cast not_le.mp h
    linarith
  have hR52 : 0 < T → 2^52 ≤ R := by
    intro h
    by_contra hh
    have : (R:ℚ) + 1 ≤ 2^52 := by exact_mod_cast not_le.mp hh
    have := hy52 h
    linarith
  have hTR : T = 0 ∨ 2^52 ≤ R := by
    rcases Nat.eq_zero_or_pos T with h | h
    · exact .inl h
    · exact .inr (hR52 h)
  have habs : |signRat neg * x| = x := by
    rw [abs_mul, abs_of_pos hx0]; cases neg <;> simp [signRat]
  have htp : (2:ℚ)^t = 2^T * (2:ℚ)^(-1074:ℤ) := by rw [hT, zpow_add₀ (by norm_num), zpow_natCast]
  by_cases hov : 2047 * 2^52 ≤ T * 2^52 + R
  · rw [if_pos hov]
    obtain ⟨a1, a2, -⟩ := fields_of_signed_magnitude neg (M := 2047 * 2^52) (by norm_num)
    obtain ⟨b1, b2, b3⟩ := unpackF64_of_magnitude (infF64 neg)
    have hM : (infF64 neg).toNat % 2^63 = 2047 * 2^52 := a1
    rw [IsRoundedToNearest, if_neg (by rw [b1, hM]; exact lt_irrefl _), b3 hM, habs]
    have hs : (infF64 neg).getLsbD 63 = neg := a2
    rw [hs]
    refine ⟨?_, ?_⟩
    · have hT' : 2045 ≤ T := by omega
      by_cases hTe : T = 2045
      · have hR : R = 2^53 := by omega
        have hy' : (2:ℚ)^53 - 1/2 ≤ y := by
          have := abs_le.mp h1
          rw [hR] at this; push_cast at this; linarith
        rw [hxy, show t = 971 by omega]
        have : (2:ℚ)^(1024:ℤ) - (2:ℚ)^(970:ℤ) = (2^53 - 1/2) * (2:ℚ)^(971:ℤ) := by
          rw [show (1024:ℤ) = (54:ℕ) + 970 by norm_num, two_zpow_add_970,
            show (971:ℤ) = (1:ℕ) + 970 by norm_num, two_zpow_add_970]; ring
        rw [this]
        exact mul_le_mul_of_nonneg_right hy' (by positivity)
      · have := hy52 (by omega)
        have h972 : (2:ℚ)^(972:ℤ) ≤ (2:ℚ)^t := zpow_le_zpow_right₀ (by norm_num) (by omega)
        have : (2:ℚ)^52 * (2:ℚ)^(972:ℤ) ≤ x := by
          rw [hxy]; exact mul_le_mul this h972 (by positivity) (by positivity)
        have e : (2:ℚ)^(1024:ℤ) = 2^52 * (2:ℚ)^(972:ℤ) := by
          rw [show (1024:ℤ) = (54:ℕ) + 970 by norm_num, two_zpow_add_970,
            show (972:ℤ) = (2:ℕ) + 970 by norm_num, two_zpow_add_970]; ring
        have : (0:ℚ) < (2:ℚ)^(970:ℤ) := by positivity
        linarith
    · suffices h : neg = decide (signRat neg * x < 0) by rw [← h]
      cases neg
      · simp [signRat, hx0.le]
      · simp [signRat, hx0]
  · rw [if_neg hov]
    obtain ⟨a1, a2, a3⟩ := fields_of_signed_magnitude neg (M := T * 2^52 + R) (by omega)
    generalize BitVec.ofNat 64 (signBit neg + (T * 2^52 + R)) = r at *
    obtain ⟨b1, b2, b3⟩ := unpackF64_of_magnitude r
    have hfin : isFinite r = true := b1.mpr (by omega)
    rw [IsRoundedToNearest, if_pos hfin, habs]
    have hr := rationalOf_of_finite hfin
    rw [a1, a2, magnitudeUnits_of_rounded hR53 hTR] at hr
    have hr' : rationalOf r = signRat neg * R * (2:ℚ)^t := by
      rw [hr, htp]; push_cast; simp only [signRat]; ring
    have hsabs : ∀ q : ℚ, |signRat neg * q| = |q| := by intro q; cases neg <;> simp [signRat]
    have hrd : |rationalOf r - signRat neg * x| = |(R:ℚ) - y| * 2^T * (2:ℚ)^(-1074:ℤ) := by
      rw [hr', hxy, mul_assoc, ← mul_sub, hsabs, ← sub_mul, abs_mul, abs_of_pos hpt, htp]; ring
    refine ⟨?_, ?_⟩
    · have hT' : T ≤ 2045 := by
        by_contra h
        have := hR52 (by omega)
        omega
      by_cases hTe : T = 2045
      · have hR : R < 2^53 := by omega
        have hy' : y < (2:ℚ)^53 - 1/2 := by
          by_contra hh
          have hR1 : (R:ℚ) + 1 ≤ 2^53 := by exact_mod_cast hR
          have h3 := abs_le.mp h1
          have hyeq : (R:ℚ) - y = -(1/2) := by linarith
          have hReq : (R:ℚ) = 2^53 - 1 := by linarith
          have hReq' : R = 2^53 - 1 := by
            have : (R:ℚ) + 1 = 2^53 := by linarith
            have : R + 1 = 2^53 := by exact_mod_cast this
            omega
          have := h2 (by rw [hyeq]; norm_num)
          omega
        rw [hxy, show t = 971 by omega]
        have : (2:ℚ)^(1024:ℤ) - (2:ℚ)^(970:ℤ) = (2^53 - 1/2) * (2:ℚ)^(971:ℤ) := by
          rw [show (1024:ℤ) = (54:ℕ) + 970 by norm_num, two_zpow_add_970,
            show (971:ℤ) = (1:ℕ) + 970 by norm_num, two_zpow_add_970]; ring
        rw [this]
        exact mul_lt_mul_of_pos_right hy' (by positivity)
      · have h970 : (2:ℚ)^t ≤ (2:ℚ)^(970:ℤ) := zpow_le_zpow_right₀ (by norm_num) (by omega)
        have : x ≤ (2:ℚ)^53 * (2:ℚ)^(970:ℤ) := by
          rw [hxy]; exact mul_le_mul hy53.le h970 (by positivity) (by positivity)
        have e : (2:ℚ)^(1024:ℤ) - (2:ℚ)^(970:ℤ) = (2^54 - 1) * (2:ℚ)^(970:ℤ) := by
          rw [show (1024:ℤ) = (54:ℕ) + 970 by norm_num, two_zpow_add_970]; ring
        rw [e]
        refine lt_of_le_of_lt this (mul_lt_mul_of_pos_right (by norm_num) (by positivity))
    · intro z hz
      have hzr := rationalOf_of_finite hz
      obtain ⟨b', hb'⟩ : ∃ b' : Bool, signRat (z.getLsbD 63) = signRat neg * signRat b' := by
        generalize z.getLsbD 63 = bz
        exact ⟨bz ^^ neg, by cases neg <;> cases bz <;> simp [signRat]⟩
      have hzr' : rationalOf z = signRat neg * (signRat b' * magnitudeUnits (z.toNat % 2^63))
          * (2:ℚ)^(-1074:ℤ) := by
        rw [hzr]; change signRat (z.getLsbD 63) * _ * _ = _; rw [hb']; ring
      have hU : (0:ℚ) < (2:ℚ)^(-1074:ℤ) := by positivity
      have hzd : |rationalOf z - signRat neg * x| =
          |signRat b' * magnitudeUnits (z.toNat % 2^63) - y * 2^T| * (2:ℚ)^(-1074:ℤ) := by
        rw [hzr', hxy, htp, mul_assoc, ← mul_sub, hsabs, ← mul_assoc y, ← sub_mul, abs_mul, abs_of_pos hU]
      obtain ⟨c1, c2⟩ := nearest_among_units hy52 h1 h2 b' (magnitudeUnits (z.toNat % 2^63))
        (magnitudeUnits_coarse _ _)
      rw [hrd, hzd]
      refine ⟨mul_le_mul_of_nonneg_right c1 hU.le, fun hne heq => ?_⟩
      have heq' := mul_right_cancel₀ hU.ne' heq
      have hev := c2 (fun h => hne (by rw [hzr', h, hr', htp]; ring)) heq'
      rw [a3, decide_eq_false_iff_not]; omega

theorem roundF64_zero (neg : Bool) (den : ℕ) (e : ℤ) : IsRoundedToNearest (roundF64 neg 0 den e) 0 := by
  rw [roundF64, if_pos rfl]
  obtain ⟨a1, a2, a3⟩ := fields_of_signed_magnitude neg (M := 0) (by norm_num)
  rw [Nat.add_zero] at a1 a2 a3
  generalize BitVec.ofNat 64 (signBit neg) = r at *
  have hfin : isFinite r = true := (unpackF64_of_magnitude r).1.mpr (by omega)
  have hr := rationalOf_of_finite hfin
  rw [a1] at hr
  have hr0 : rationalOf r = 0 := by rw [hr]; simp [magnitudeUnits]
  rw [IsRoundedToNearest, if_pos hfin, hr0]
  refine ⟨by rw [abs_zero, sub_pos]; exact zpow_lt_zpow_right₀ (by norm_num) (by norm_num),
    fun z _ => ⟨by simp, fun _ _ => by rw [a3]; rfl⟩⟩

/-- `roundF64` rounds to nearest, ties to even. -/
theorem roundF64_spec (neg : Bool) (num : ℕ) {den : ℕ} (hd : 0 < den) (e : ℤ) {q : ℚ}
   (hq : q = signRat neg * ((num:ℚ)/den * (2:ℚ)^e)) : IsRoundedToNearest (roundF64 neg num den e) q := by
  rcases Nat.eq_zero_or_pos num with rfl | h
  · rw [hq, show signRat neg * (((0:ℕ):ℚ)/den * (2:ℚ)^e) = 0 by simp]; exact roundF64_zero _ _ _
  · rw [hq]; exact roundF64_pos neg h hd e

/-- A finite pattern and the number it stands for. -/
theorem finite_cases {x : F64} (h : isFinite x = true) :
    ∃ s m e, unpackF64 x = .finite s m e ∧ rationalOf x = signRat s * m * (2:ℚ)^e := by
  simp only [isFinite] at h
  split at h
  · cases h
  · cases h
  · rename_i s m e he
    exact ⟨s, m, e, he, by rw [rationalOf, he]; rfl⟩

theorem signedShift_cast (s : Bool) (m k : ℕ) : ((signedShift s m k : ℤ) : ℚ) = signRat s * m * 2^k := by
  cases s <;> simp [signedShift, signRat]

theorem signRat_xor (a b : Bool) : signRat (a ^^ b) = signRat a * signRat b := by cases a <;> cases b <;> simp [signRat]

theorem signRat_mul_natAbs (v : ℤ) : signRat (decide (v < 0)) * v.natAbs = v := by
  rw [Nat.cast_natAbs]
  by_cases h : v < 0
  · simp [signRat, h, abs_of_neg h]
  · simp [signRat, h, abs_of_nonneg (not_lt.mp h)]

end Sys2Proof.Machine
end

