-- ==== Sys2Proof/Laws/PerInstr.lean ====
section
/-! SUPPORT. Facts stated of every command and proved one command at a time. -/

namespace Sys2Proof.Laws.DecodeEncode

/-- The decoder reads back the command that was encoded, where its record has the size the block is built for. -/
def Statement (i : Instr) : Prop :=
  ∀ pktLen : Nat, i.recordFits pktLen = true → decode pktLen (encode i) = .command i

theorem advance : Statement .advance := fun _ _ => rfl

theorem resync : Statement .resync := fun _ _ => rfl

theorem read (ch : BitVec 4) : Statement (.read ch) := by
  intro n _
  simp [decode, opcode, channelBits]

theorem update (ch : BitVec 4) (delta : Word32) : Statement (.update ch delta) := by
  intro n _
  simp only [decode, encode_cw, rsvField_encodeWord, opcField_encodeWord, chField_encodeWord, opcode, channelBits]
  rfl

theorem batch : Statement .batch := fun _ _ => rfl

theorem packet (pkt : List Byte) (sidx : Word32) : Statement (.packet pkt sidx) := by
  intro n h
  have hlen : pkt.length = n := by simpa [Instr.recordFits] using h
  simp only [decode, encode_cw, rsvField_encodeWord, opcField_encodeWord, opcode, withoutChannel, chField_encodeWord,
    channelBits]
  simp [encode, packetBytes_of_length hlen]

theorem dwell : Statement .dwell := fun _ _ => rfl

theorem status : Statement .status := fun _ _ => rfl

end Sys2Proof.Laws.DecodeEncode
end

