-- ==== Sys2Proof/Laws/Step.lean ====
section
/-! SUPPORT. What a meaning and a step can do, said once. -/

namespace Sys2Proof.Machine

/-- What the steps of a command other than STATUS come to, before the block answers. -/
def effectOf (i : Instr) (s : State) : Effect :=
  match i with
  | .advance => hopTo s (nextHop s.hopIdx)
  | .resync => hopTo s s.draws.hop
  | .read ch =>
    match channelOperand ch with
    | none => .error .badChannel
    | some k => .ok (s, readEntry s k)
  | .update ch delta =>
    match channelOperand ch with
    | none => .error .badChannel
    | some k =>
      match trackUpdate k (deltaOperand delta) s with
      | .error code => .error code
      | .ok t => .ok (t, okResponse)
  | .batch => .ok (s.clearCache, okResponse)
  | .packet pkt sidx => decodePacket (revPkt s.cfg.pktLen pkt) sidx s
  | .dwell => .ok (s, dwellResponse (dwellUs s.cfg))
  | .status => .ok (s, statusResponse s)

/-- Every command but STATUS is the run of its effect. -/
theorem exec_eq_runCommand {i : Instr} (h : i ≠ .status) (s : State) : exec i s = .next (s.runCommand (effectOf i s)) := by
  cases i <;> first | rfl | exact absurd rfl h

theorem exec_status (s : State) : exec .status s = .next (s.respond (statusResponse s)) := rfl

/-- Everything a meaning can answer: the STATUS response, the FAULTED answer, a fault, or its effect. -/
theorem exec_cases {i : Instr} {s t : State} (h : exec i s = .next t) :
    (i = .status ∧ t = s.respond (statusResponse s)) ∨
    (i ≠ .status ∧ s.fault ≠ .noFault ∧ t = s.answerFaulted) ∨
    (i ≠ .status ∧ s.fault = .noFault ∧ ∃ c, effectOf i s = .error c ∧ t = s.raiseFault c) ∨
    (i ≠ .status ∧ s.fault = .noFault ∧ ∃ u r, effectOf i s = .ok (u, r) ∧ t = u.respond r) := by
  by_cases hi : i = .status
  · subst hi
    rw [exec_status] at h
    exact .inl ⟨rfl, (Host.Outcome.next.inj h).symm⟩
  · rw [exec_eq_runCommand hi] at h
    have ht := (Host.Outcome.next.inj h).symm
    rcases runCommand_cases s (effectOf i s) with ⟨hf, hr⟩ | ⟨hf, c, he, hr⟩ | ⟨hf, u, r, he, hr⟩
    · exact .inr (.inl ⟨hi, hf, ht.trans hr⟩)
    · exact .inr (.inr (.inl ⟨hi, hf, c, he, ht.trans hr⟩))
    · exact .inr (.inr (.inr ⟨hi, hf, u, r, he, ht.trans hr⟩))

/-- Everything a step can do: hold the state, reset the block, refuse an illegal word, or run a command. -/
theorem step_cases {s t : State} (h : step s = .next t) :
    (s.input = [] ∧ t = s) ∨
    (∃ rest, s.input = .reset :: rest ∧ t = { s with input := rest }.resetBlock) ∨
    (∃ record env draws rest why, s.input = .command record env draws :: rest ∧
      decode s.cfg.pktLen record = .illegal why ∧ t = (s.present rest env draws).illegalWord) ∨
    (∃ record env draws rest i, s.input = .command record env draws :: rest ∧
      decode s.cfg.pktLen record = .command i ∧ exec i (s.present rest env draws) = .next t) := by
  unfold step at h
  split at h
  · exact .inl ⟨‹_›, (Host.Outcome.next.inj h).symm⟩
  · exact .inr (.inl ⟨_, ‹_›, (Host.Outcome.next.inj h).symm⟩)
  · split at h
    · exact .inr (.inr (.inr ⟨_, _, _, _, _, ‹_›, ‹_›, h⟩))
    · exact .inr (.inr (.inl ⟨_, _, _, _, _, ‹_›, ‹_›, (Host.Outcome.next.inj h).symm⟩))

end Sys2Proof.Machine
end

