-- ==== Sys2Proof/Machine/ScriptText.lean ====
section
/-! DEFINITION. The text of command scripts (R88): one command or directive per line, `;` starts a comment. The reader
gives `Script.lean`'s lines. It is total, and gives none for a text that is no script. -/

namespace Sys2Proof.Machine

/-- A word or a punctuation mark of a line. -/
abbrev Token := List Char

/-- Characters between tokens. -/
def isBlank (c : Char) : Bool := c == ' ' || c == '\t' || c == '\r'

/-- Characters that are a token by themselves. -/
def isPunctuation (c : Char) : Bool := c == ',' || c == '[' || c == ']' || c == ')' || c == '='

/-- The word read so far (its last character first) as a token, if there is one. -/
def endWord (word : List Char) (rest : List Token) : List Token := if word = [] then rest else word.reverse :: rest

/-- The tokens of a line, up to its comment. `word` is the word read so far, its last character first. -/
def tokens : (word : List Char) → List Char → List Token
  | word, [] => endWord word []
  | word, c :: rest =>
    if c = ';' then endWord word []
    else if isBlank c then endWord word (tokens [] rest)
    else if isPunctuation c then endWord word ([c] :: tokens [] rest)
    else tokens (c :: word) rest

/-- The lines of a text. `line` is the line read so far, its last character first. -/
def textLines : (line : List Char) → List Char → List (List Char)
  | line, [] => [line.reverse]
  | line, c :: rest => if c = '\n' then line.reverse :: textLines [] rest else textLines (c :: line) rest

/-! ### Numbers -/

/-- The value of a digit, decimal, hexadecimal or binary by the base it must lie below. -/
def digit (base : Nat) (c : Char) : Option Nat :=
  let v :=
    if '0' ≤ c ∧ c ≤ '9' then some (c.toNat - 48)
    else if 'A' ≤ c ∧ c ≤ 'F' then some (c.toNat - 55)
    else if 'a' ≤ c ∧ c ≤ 'f' then some (c.toNat - 87)
    else none
  match v with
  | some d => if d < base then some d else none
  | none => none

/-- The number whose digits follow those of `acc`. -/
def digits (base : Nat) : (acc : Nat) → List Char → Option Nat
  | acc, [] => some acc
  | acc, c :: rest =>
    match digit base c with
    | some d => digits base (acc * base + d) rest
    | none => none

/-- A number in a base, with at least one digit. -/
def number (base : Nat) (t : Token) : Option Nat := if t = [] then none else digits base 0 t

/-- A `0x` hexadecimal or `0b` binary number. -/
def prefixed (t : Token) : Option Nat :=
  match t with
  | '0' :: 'x' :: rest => number 16 rest
  | '0' :: 'b' :: rest => number 2 rest
  | _ => none

/-- A number below a bound. -/
def below (bound : Nat) (n : Option Nat) : Option Nat :=
  match n with
  | some v => if v < bound then some v else none
  | none => none

/-- `<ch>`: a decimal 0..8. -/
def readChannelToken (t : Token) : Option (BitVec 4) := (below 9 (number 10 t)).map (BitVec.ofNat 4)

/-- `<delta>`: a signed decimal or a `0x` number, in the s32 range (log 12). -/
def readDelta (t : Token) : Option Word32 :=
  match t with
  | '-' :: rest => (below 2147483649 (number 10 rest)).map (fun v => BitVec.ofInt 32 (-(v : Int)))
  | '0' :: 'x' :: rest => (below 2147483648 (number 16 rest)).map (BitVec.ofNat 32)
  | _ => (below 2147483648 (number 10 t)).map (BitVec.ofNat 32)

/-- A packet byte: `0x` hexadecimal or `0b` binary. -/
def readByte (t : Token) : Option Byte := (below 256 (prefixed t)).map (BitVec.ofNat 8)

/-- `<sidx>`: a decimal u32. -/
def readSampleIndex (t : Token) : Option Word32 := (below 4294967296 (number 10 t)).map (BitVec.ofNat 32)

/-- The magnitude of a sample: a decimal number, with or without a fraction, rounded once (log 12). -/
def readDecimalSample (neg : Bool) (t : Token) : Option F64 :=
  let whole := t.takeWhile (· ≠ '.')
  match t.drop whole.length with
  | [] => (number 10 whole).map (fun n => roundF64 neg n 1 0)
  | _ :: fraction =>
    match number 10 whole, number 10 fraction with
    | some _, some _ => (number 10 (whole ++ fraction)).map (fun n => roundF64 neg n (10 ^ fraction.length) 0)
    | _, _ => none

/-- `<x>`: a signed decimal, or the 16 hexadecimal digits of a bit pattern (log 12). -/
def readSample (t : Token) : Option F64 :=
  match t with
  | '0' :: 'x' :: rest => if rest.length = 16 then (number 16 rest).map (BitVec.ofNat 64) else none
  | '-' :: rest => readDecimalSample true rest
  | _ => readDecimalSample false t

/-! ### Lines -/

/-- `<b0>, <b1>, ..., <bn>]` and what follows it. -/
def readBytes : List Token → Option (List Byte × List Token)
  | b :: [','] :: rest =>
    match readByte b, readBytes rest with
    | some v, some (vs, after) => some (v :: vs, after)
    | _, _ => none
  | b :: [']'] :: rest => (readByte b).map (fun v => ([v], rest))
  | _ => none

/-- `i..j` of a range. -/
def readSpan (t : Token) : Option (Nat × Nat) :=
  let first := t.takeWhile (· ≠ '.')
  match t.drop first.length with
  | '.' :: '.' :: last =>
    match number 10 first, number 10 last with
    | some i, some j => some (i, j)
    | _, _ => none
  | _ => none

/-- `[i..j) = x` ranges, with or without a comma between them (log 12). -/
def readRanges : List Token → Option (List (Nat × Nat × F64))
  | ['['] :: span :: [')'] :: ['='] :: x :: rest =>
    match readSpan span, readSample x with
    | some (i, j), some v =>
      match rest with
      | [] => some [(i, j, v)]
      | [','] :: more => (readRanges more).map ((i, j, v) :: ·)
      | other :: more => (readRanges (other :: more)).map ((i, j, v) :: ·)
    | _, _ => none
  | _ => none

/-- `<rule>`. -/
def readRule (args : List Token) : Option TraceRule :=
  match args with
  | [['f', 'i', 'l', 'l'], x] => (readSample x).map TraceRule.fill
  | _ => (readRanges args).map TraceRule.ranges

/-- The command of a mnemonic and its operands. -/
def readCommand (mnemonic : Token) (args : List Token) : Option Instr :=
  match args with
  | [] =>
    if mnemonic = "ADVANCE".toList then some .advance
    else if mnemonic = "RESYNC".toList then some .resync
    else if mnemonic = "BATCH".toList then some .batch
    else if mnemonic = "DWELL".toList then some .dwell
    else if mnemonic = "STATUS".toList then some .status
    else none
  | [ch] => if mnemonic = "READ".toList then (readChannelToken ch).map Instr.read else none
  | ['['] :: rest =>
    if mnemonic = "PACKET".toList then
      match readBytes rest with
      | some (pkt, [[','], sidx]) => (readSampleIndex sidx).map (Instr.packet pkt)
      | _ => none
    else none
  | [ch, [','], delta] =>
    if mnemonic = "UPDATE".toList then
      match readChannelToken ch, readDelta delta with
      | some c, some d => some (.update c d)
      | _, _ => none
    else none
  | _ => none

/-- A line that is not blank. -/
def readLine (draws : Draws) (line : List Token) : Option ScriptLine :=
  match line with
  | [] => none
  | word :: args =>
    if word = ".trace".toList then
      match args with
      | len :: [','] :: rule =>
        match number 10 len, readRule rule with
        | some n, some r => some (.trace n r)
        | _, _ => none
      | _ => none
    else (readCommand word args).map (fun i => .command i draws)

/-- The lines that are not blank; the n-th gets the n-th of the draws, which the text does not give. -/
def readLines : (draws : Nat → Draws) → List (List Token) → Option (List ScriptLine)
  | _, [] => some []
  | draws, line :: rest =>
    match readLine (draws 0) line, readLines (fun n => draws (n + 1)) rest with
    | some l, some ls => some (l :: ls)
    | _, _ => none

/-- The script a text stands for. -/
def readScript (draws : Nat → Draws) (text : String) : Option (List ScriptLine) :=
  readLines draws (((textLines [] text.toList).map (tokens [])).filter (fun line => decide (line ≠ [])))

/-- The events of a script's text: no env is given before its first `.trace`. -/
def assembleText (pktLen : Nat) (draws : Nat → Draws) (text : String) : Option (List Event) :=
  match readScript draws text with
  | some lines => assemble pktLen { trace := [] } lines
  | none => none

end Sys2Proof.Machine
end

