-- ==== Sys2Proof/Tests/Slice0.lean ====
section
/-! SUPPORT. Tests of the model on the vectors of `95_test_vectors.md`, and for every statement with hypotheses a witness
that meets them. Expected values come from the spec's tables, never from the model. -/

namespace Sys2Proof.Tests

open Sys2Proof Sys2Proof.Machine

/-! ### Small states -/

/-- Reset under the illustrative configuration, with draws a test can read. -/
def base : State := { State.resetWith Config.illustrative with draws := { hop := 5, readValue := 7 } }

/-- A block that holds TRACE_BOUNDS. -/
def stopped : State := { base with fault := .traceBounds }

/-- A trace of `n` samples, every one -3.125. -/
def flat (n : Nat) : Env := { trace := List.replicate n 0xC009000000000000#64 }

def withTrace (s : State) (n : Nat) : State := { s with env := flat n }

/-- One valid entry. -/
def withEntry (s : State) (k : Channel) (v : Word32) : State :=
  { s with lutVal := s.lutVal.set k.val v, lutValid := BitVec.twoPow 9 k.val }

def withCache (s : State) (keys : List (List Byte)) : State :=
  { s with cache := keys, cacheCount := BitVec.ofNat 32 keys.length }

/-- A record without operands. -/
def word (cw : Word32) : CommandRecord := { cw := cw, delta := 0, pkt := [], sidx := 0 }

/-- The state with one command to come. -/
def given (s : State) (r : CommandRecord) : State := { s with input := [.command r s.env s.draws] }

def after (i : Instr) (s : State) : Option State :=
  match exec i s with
  | .next t => some t
  | .fault _ => none
  | .refused _ => none

def response (i : Instr) (s : State) : Option Response := (after i s).bind (·.resp)

def ok (w0 w1 w2 : Word32) : Option Response := some { rs := .ok, w0 := w0, w1 := w1, w2 := w2, pay := [] }

/-- The raw packets of `95_test_vectors.md` section 0, and K1, K2 normalized. -/
def k1 : List Byte := [0x55, 0xAA, 0xC1, 0x30, 0x13, 0xE2]

def k2 : List Byte := [0x55, 0xAA, 0xC1, 0x30, 0x13, 0x62]

def k4 : List Byte := [0x55, 0xAA, 0x84, 0x00, 0x08, 0x8C]

def k1n : List Byte := [0xAA, 0x55, 0x83, 0x0C, 0xC8, 0x47]

def k2n : List Byte := [0xAA, 0x55, 0x83, 0x0C, 0xC8, 0x46]

/-! ### WellFormed refuses an ill-formed term of each kind -/

theorem test_wellFormed_refuses_a_packet_of_another_length : (Instr.packet [0x55, 0xAA] 0).wellFormed 6 = false := by
  decide

theorem test_wellFormed_refuses_read_of_channel_9 : (Instr.read 9).wellFormed 6 = false := by decide

theorem test_wellFormed_refuses_update_of_channel_9 : (Instr.update 9 0).wellFormed 6 = false := by decide

theorem test_wellFormed_accepts_legal_commands :
    (Instr.packet k1 0).wellFormed 6 = true ∧ (Instr.read 8).wellFormed 6 = true ∧
      (Instr.update 8 0).wellFormed 6 = true := by decide

/-! ### Decoding (R70, R72, R77, V-DECODE), one word per command, from its encoding -/

theorem test_decode_advance : decode 6 (word 0b00000000000000000000000000000001#32) = .command .advance := by decide

theorem test_decode_resync : decode 6 (word 0b00000000000000000000000000000010#32) = .command .resync := by decide

theorem test_decode_read : decode 6 (word 0b00000000000000000000000010000011#32) = .command (.read 8) := by decide

theorem test_decode_update :
    decode 6 { word 0b00000000000000000000000000100100#32 with delta := 0xFFFFFFCE#32 }
      = .command (.update 2 0xFFFFFFCE#32) := by decide

theorem test_decode_batch : decode 6 (word 0b00000000000000000000000000000101#32) = .command .batch := by decide

theorem test_decode_packet :
    decode 6 { word 0b00000000000000000000000000000110#32 with pkt := k1, sidx := 100 }
      = .command (.packet k1 100) := by decide

theorem test_decode_dwell : decode 6 (word 0b00000000000000000000000000000111#32) = .command .dwell := by decide

theorem test_decode_status : decode 6 (word 0b00000000000000000000000000001000#32) = .command .status := by decide

theorem test_decode_refuses_illegal_words :
    decode 6 (word 0x00000000#32) = .illegal .reservedOpcode ∧
    decode 6 (word 0x00000009#32) = .illegal .reservedOpcode ∧
    decode 6 (word 0x0000000F#32) = .illegal .reservedOpcode ∧
    decode 6 (word 0x00000011#32) = .illegal .channelNotUsed ∧
    decode 6 (word 0x00000103#32) = .illegal .reservedBitsSet ∧
    decode 6 (word 0x80000008#32) = .illegal .reservedBitsSet := by decide

theorem test_encode_words :
    encodeWord .advance = 0x00000001#32 ∧ encodeWord (.read 5) = 0x00000053#32 ∧
      encodeWord (.update 8 0) = 0x00000084#32 := by decide

/-- The first step after reset runs the word that is placed, whatever the OPEN values are. -/
theorem test_first_step_after_reset :
    decodeTableWord 32 0x00000001 = some .advance ∧
      ∃ t, step (State.reset.withFetchWord 32 0x00000001) = .next t := ⟨rfl, _, rfl⟩

/-! ### One step of each command -/

/-- V-HOP row 2. -/
theorem test_advance_wraps :
    (after .advance { base with hopIdx := 8 }).map (·.hopIdx) = some 0 ∧
      response .advance { base with hopIdx := 8 } = ok 0 867500000 0 := by decide

/-- V-HOP row 3. -/
theorem test_advance_loads_the_entry_of_the_new_channel :
    (after .advance { withEntry base 4 (-120) with curErr := 40 }).map (·.curErr) = some (-120) ∧
      response .advance { withEntry base 4 (-120) with curErr := 40 } = ok 4 868000000 (-120) := by decide

/-- V-HOP row 5. -/
theorem test_resync_to_the_same_index :
    response .resync { base with hopIdx := 5, curErr := -30 } = ok 2 867750000 (-30) := by decide

/-- V-HOP row 6. -/
theorem test_resync_loads_the_entry_of_the_drawn_channel :
    response .resync { withEntry base 8 11 with hopIdx := 5, curErr := -30, draws := { hop := 2, readValue := 7 } }
      = ok 8 868500000 11 := by decide

/-- V-TRACK row 3. -/
theorem test_read_of_an_entry : response (.read 2) (withEntry base 2 (-50)) = ok 1 0xFFFFFFCE#32 0 := by decide

/-- V-TRACK row 10. -/
theorem test_read_of_channel_9_faults : (after (.read 9) base).map (·.fault) = some .badChannel := by decide

/-- V-TRACK row 6: the sum is of CUR_ERR, not of the entry. -/
theorem test_update_adds_to_the_running_error :
    (after (.update 5 5) { withEntry base 5 70 with curErr := 10 }).map (fun t => (t.curErr, t.lutVal[(5 : Fin 9)]))
      = some (15, 15) := by decide

/-- V-TRACK row 9. -/
theorem test_update_overflow_writes_nothing :
    (after (.update 0 0x80000000#32) { base with curErr := -1 }).map (fun t => (t.fault, t.curErr, t.lutValid))
      = some (.errOverflow, -1, 0) := by decide

/-- V-PACKET row 9. -/
theorem test_batch_empties_the_cache :
    (after .batch (withCache base [k1n, k2n])).map (fun t => (t.cache, t.cacheCount)) = some ([], 0) := by decide

/-- V-PACKET row 1, V-FRAME row 1 and P5 step 3. -/
theorem test_packet_K1_is_accepted :
    (after (.packet k1 376) (withTrace base 400)).map (fun t => (t.cache, t.curErr, t.lutVal[(0 : Fin 9)], t.resp))
      = some ([k1n], -50, -50,
          some { rs := .ok, w0 := 0xC80C1831#32, w1 := 376, w2 := 0, pay := [0x83, 0x0C, 0xC8, 0x47] }) := by
  decide +kernel

/-- V-PACKET row 6: the insertion of K4 is undone. -/
theorem test_packet_out_of_bounds_undoes_the_insertion :
    (after (.packet k4 377) (withTrace (withCache base [k2n]) 400)).map (fun t => (t.cache, t.cacheCount, t.fault))
      = some ([k2n], 1, .traceBounds) := by decide +kernel

/-- V-HOP row 8. -/
theorem test_dwell : response .dwell base = ok 128000 0 0 := by decide

/-- V-STATUS row 2. -/
theorem test_status :
    response .status { withCache base [k1n, k2n] with hopIdx := 3, lutValid := 0b001000100#9, curErr := -50 }
      = ok 0x00440003#32 0xFFFFFFCE#32 2 := by decide

/-- V-STATUS row 3: STATUS runs while FAULT is not 0. -/
theorem test_status_of_a_faulted_block : response .status { base with fault := .badChannel } = ok 0x00000020#32 0 0 := by
  decide

/-- R88: ranges that overlap, or leave an index open, fix no trace. -/
theorem test_trace_ranges :
    samplesOfRule (.ranges [(0, 1, 5#64), (1, 3, 6#64)]) 0 3 = some [5#64, 6#64, 6#64] ∧
    samplesOfRule (.ranges [(0, 2, 5#64), (1, 3, 6#64)]) 0 3 = none ∧
    samplesOfRule (.ranges [(0, 1, 5#64)]) 0 3 = none := by decide

/-- P2's text and its encodings. -/
theorem test_script_text_of_P2 :
    ((assembleText 6 (fun _ => base.draws)
        "ADVANCE ; first\nUPDATE  4, -120\nADVANCE\nUPDATE  8, 20\n\nREAD    4\nREAD    0\nRESYNC\nSTATUS").map
      (fun es => es.map (fun e => match e with
        | .command r _ _ => (r.cw, r.delta)
        | .reset => (0, 0))))
      = some [(0x00000001#32, 0), (0x00000044#32, 0xFFFFFF88#32), (0x00000001#32, 0), (0x00000084#32, 0x00000014#32),
          (0x00000043#32, 0), (0x00000003#32, 0), (0x00000002#32, 0), (0x00000008#32, 0)] := by decide +kernel

/-- P3's directive and a packet line; a channel past 8 and a packet of another length are no script. -/
theorem test_script_text_of_P3 :
    assembleText 6 (fun _ => base.draws) ".trace 2, fill -3.125\nPACKET [0x55,0xAA,0xC1,0x30,0x13,0b11100010], 100"
      = some [.command (encode (.packet k1 100)) (flat 2) base.draws] ∧
    assembleText 6 (fun _ => base.draws) "READ 9" = none ∧
    assembleText 6 (fun _ => base.draws) "PACKET [0x55], 100" = none := by decide +kernel

/-! ### Witnesses: the hypotheses of each statement can be met -/

/-- For every statement about a state with a command to come. -/
theorem witness_input (s : State) (r : CommandRecord) : (given s r).input = .command r s.env s.draws :: [] := rfl

theorem witness_DecodeUndoesEncode :
    (Instr.packet k1 0xFFFFFFFF#32).recordFits 6 = true ∧ (Instr.read 15).recordFits 6 = true := by decide

theorem witness_EachCommandHasOneBitPattern :
    decode 6 (word 0x00000053#32) = .command (.read 5) ∧
      decode 6 { word 0x00000084#32 with delta := 9 } = .command (.update 8 9) := by decide

theorem witness_Verdicts_faulted :
    stopped.fault ≠ .noFault ∧ (word 0x00000000#32).cw ≠ 0x00000008#32 ∧ (word 0x00000108#32).cw ≠ 0x00000008#32 := by
  decide

/-- Verdict 2 at the edges of each of its grounds: OPC 0, 9 and 15, the lowest bit of RSV, CH of 1 on OPC 1. -/
theorem witness_Verdicts_illegal :
    base.fault = .noFault ∧
    ∀ cw ∈ [0x00000000#32, 0x00000009#32, 0x0000000F#32, 0x00000103#32, 0x00000011#32],
      let opc := cw.toNat % 16
      opc = 0 ∨ 9 ≤ opc ∨ cw.toNat / 256 ≠ 0 ∨ (cw.toNat / 16 % 16 ≠ 0 ∧ opc ≠ 3 ∧ opc ≠ 4) :=
  ⟨by decide, by simp⟩

/-- Verdict 3 at channels 9 and 15. -/
theorem witness_Verdicts_badChannel :
    base.fault = .noFault ∧
    ∀ cw ∈ [0x00000093#32, 0x000000F4#32],
      cw.toNat / 256 = 0 ∧ (cw.toNat % 16 = 3 ∨ cw.toNat % 16 = 4) ∧ 9 ≤ cw.toNat / 16 % 16 :=
  ⟨by decide, by simp⟩

/-- Verdict 4 at READ 8, UPDATE 0, OPC 1 and OPC 8, and STATUS on a faulted block. -/
theorem witness_Verdicts_legal :
    base.fault = .noFault ∧ stopped.fault ≠ .noFault ∧
    ∀ cw ∈ [0x00000083#32, 0x00000004#32, 0x00000001#32, 0x00000008#32],
      let opc := cw.toNat % 16
      let ch := cw.toNat / 16 % 16
      cw.toNat / 256 = 0 ∧
        (((opc = 3 ∨ opc = 4) ∧ ch < 9) ∨ (1 ≤ opc ∧ opc ≤ 8 ∧ opc ≠ 3 ∧ opc ≠ 4 ∧ ch = 0)) :=
  ⟨by decide, by decide, by simp⟩

theorem witness_PacketRecordOfAnotherLength :
    (word 0x00000006#32).cw &&& 0xF#32 = 6#32 ∧ (word 0x00000006#32).pkt.length ≠ base.cfg.pktLen ∧
      k1.length = base.cfg.pktLen ∧ (word 0x00000001#32).cw &&& 0xF#32 ≠ 6#32 := by decide

theorem witness_ScriptCommandsAssemble :
    ∃ events, assemble 6 (flat 0) [.trace 2 (.fill 5#64), .command (.read 8) base.draws] = some events := ⟨_, rfl⟩

theorem witness_StepRunsTheDecodedCommand :
    decode (given base (word 0x00000001#32)).cfg.pktLen (word 0x00000001#32) = .command .advance := by decide

theorem witness_IdleBlock : base.input = [] := rfl

/-- The response of an accepted PACKET has a payload. -/
theorem witness_EveryCommandGetsAResponse :
    ∃ a, response (.packet k1 100) (withTrace base 400) = some a ∧ a.pay ≠ [] := by
  have h : (response (.packet k1 100) (withTrace base 400)).map (·.pay) = some [0x83, 0x0C, 0xC8, 0x47] := by
    decide +kernel
  obtain ⟨a, ha, hp⟩ := Option.map_eq_some_iff.mp h
  exact ⟨a, ha, by simp [hp]⟩

theorem witness_ResetStep : ({ stopped with input := [.reset] } : State).input = .reset :: [] := rfl

/-- The least and the greatest legal values. -/
theorem witness_IllFormedConfiguration_legal :
    ∀ c ∈ [{ Config.illustrative with pktLen := 5, cfgId := 68719, dedupDepth := 1, sampleRate := 1 },
        { Config.illustrative with cfgId := 0, dedupDepth := 4294967296 }],
      (∀ ch : Channel, ∃ i : HopIndex, c.hopPattern[i] = ch) ∧ 5 ≤ c.pktLen ∧ 1 ≤ c.symbolLen ∧ 1 ≤ c.sampleRate ∧
        c.cfgId ≤ 68719 ∧ 1 ≤ c.dedupDepth := by decide

/-- One configuration past each bound. -/
theorem witness_IllFormedConfiguration_refused :
    ∀ c ∈ [{ Config.illustrative with hopPattern := Vector.replicate 9 0 }, { Config.illustrative with pktLen := 4 },
        { Config.illustrative with symbolLen := 0 }, { Config.illustrative with sampleRate := 0 },
        { Config.illustrative with cfgId := 68720 }, { Config.illustrative with dedupDepth := 0 }],
      ¬ ((∀ ch : Channel, ∃ i : HopIndex, c.hopPattern[i] = ch) ∧ 5 ≤ c.pktLen ∧ 1 ≤ c.symbolLen ∧
        1 ≤ c.sampleRate ∧ c.cfgId ≤ 68719 ∧ 1 ≤ c.dedupDepth) := by decide

theorem witness_RevPkt : k1.length = 6 ∧ k2.length = 6 := by decide

/-- For every statement about a running block and about a faulted one (ADVANCE, RESYNC, BATCH, DWELL, READ, UPDATE,
FaultedBlockRunsOnlyStatus). -/
theorem witness_running_and_faulted : base.running ∧ ¬ stopped.running := by decide

theorem witness_AdvanceMoves :
    (1 : HopIndex).val = (base.hopIdx.val + 1) % 9 ∧ (4 : Channel) = base.cfg.hopPattern[(1 : HopIndex)] ∧
      ((0 : HopIndex).val = (({ base with hopIdx := 8 } : State).hopIdx.val + 1) % 9) := by decide

theorem witness_ResyncMoves : (2 : Channel) = base.cfg.hopPattern[base.draws.hop] := by decide

theorem witness_NineAdvances :
    let s : State := { base with input := List.replicate 9 (.command (encode .advance) (flat 0) base.draws) ++ [] }
    s.running ∧ s.cfg.wf = true := by decide

theorem witness_Dwell :
    base.cfg.cfgId ≤ 68719 ∧ ({ base with cfg := { Config.illustrative with cfgId := 68719 } } : State).cfg.cfgId ≤ 68719 := by
  decide

theorem witness_DwellDepends :
    let t : State := { base with cfg := { Config.illustrative with cfgId := 68719 } }
    base.running ∧ t.running ∧ t.cfg.cfgId = base.cfg.cfgId + 68717 ∧ t.cfg.cfgId ≤ 68719 := by decide

/-- READ and UPDATE at channels 0, 8, 9 and 15, with and without an entry. -/
theorem witness_ReadAndUpdateChannels :
    (0 : Channel).val = (0 : BitVec 4).toNat ∧ (8 : Channel).val = (8 : BitVec 4).toNat ∧ 9 ≤ (9 : BitVec 4).toNat ∧
      9 ≤ (15 : BitVec 4).toNat ∧ (withEntry base 8 3).lutValid.getLsbD 8 = true ∧
      base.lutValid.getLsbD 8 = false := by decide

/-- The greatest sum that fits and the least that does not, and the same below. -/
theorem witness_UpdateSums :
    let s : State := { base with curErr := 0x7FFFFFFE#32 }
    let t : State := { base with curErr := 0x80000001#32 }
    (0x7FFFFFFF#32).toInt = s.curErr.toInt + (1#32).toInt ∧ 2147483647 < s.curErr.toInt + (2#32).toInt ∧
      (0x80000000#32).toInt = t.curErr.toInt + (0xFFFFFFFF#32).toInt ∧
      t.curErr.toInt + (0xFFFFFFFE#32).toInt < -2147483648 := by decide

/-- UPDATE 4 -120, READ 8, BATCH and UPDATE 4 20. -/
theorem witness_UpdatesCompound :
    let commands : List Issue := [⟨.update 4 0xFFFFFF88#32, flat 0, base.draws⟩, ⟨.read 8, flat 0, base.draws⟩,
      ⟨.batch, flat 0, base.draws⟩, ⟨.update 4 20, flat 0, base.draws⟩]
    let deltas : List Int := [-120, 20]
    (∀ c ∈ commands, (∃ d, c.instr = .update (BitVec.ofNat 4 (4 : Channel).val) d) ∨
      (∃ ch, c.instr = .read ch ∧ ch.toNat < 9) ∨ c.instr = .status ∨ c.instr = .dwell ∨ c.instr = .batch) ∧
    deltas = commands.filterMap (fun c => updateDelta c.instr) ∧ deltas ≠ [] ∧ ∀ n, n ≤ deltas.length →
      -2147483648 ≤ base.curErr.toInt + (deltas.take n).sum ∧
      base.curErr.toInt + (deltas.take n).sum ≤ 2147483647 := by
  refine ⟨?_, by decide, by decide, by decide⟩
  simp

/-- K1 accepted and then an UPDATE, both of channel 0. -/
theorem witness_UpdatesAndPacketsCompound :
    let commands : List Issue := [⟨.packet k1 100, flat 124, base.draws⟩, ⟨.update 0 20, flat 0, base.draws⟩]
    let s : State := { base with input := commands.map Issue.event ++ [] }
    s.running ∧
    (∀ c ∈ commands, c.instr ≠ .advance ∧ c.instr ≠ .resync ∧
      (∀ ch d, c.instr = .update ch d → ch.toNat = (0 : Channel).val) ∧
      (∀ pkt sidx, c.instr = .packet pkt sidx → pkt.length = s.cfg.pktLen ∧
        (0 : Channel) = s.cfg.hopPattern[s.hopIdx])) ∧
    ∃ t rs, runCollect 2 s = some (t, rs) ∧ t.running := by
  intro commands s
  refine ⟨rfl, ?_, ?_⟩
  · intro c hc
    simp only [commands, List.mem_cons, List.not_mem_nil, or_false] at hc
    rcases hc with rfl | rfl
    · refine ⟨by simp, by simp, by simp, fun pkt sidx h => ?_⟩
      cases h
      exact ⟨rfl, rfl⟩
    · refine ⟨by simp, by simp, fun ch d h => ?_, by simp⟩
      cases h
      rfl
  · have h : (runCollect 2 s).map (fun p => p.1.fault) = some .noFault := by decide +kernel
    obtain ⟨⟨t, rs⟩, hp, hf⟩ := Option.map_eq_some_iff.mp h
    exact ⟨t, rs, hp, hf⟩

theorem witness_DescribeReports :
    ∃ t u, exec (.update (BitVec.ofNat 4 (4 : Channel).val) 20) base = .next t ∧ t.running ∧
      (∀ c ∈ [Instr.advance, Instr.update 5 7],
        (∀ d, c ≠ .update (BitVec.ofNat 4 (4 : Channel).val) d) ∧ ∀ pkt sidx, c ≠ .packet pkt sidx) ∧
      execAll [.advance, .update 5 7] t = some u ∧ u.cfg.hopPattern[(1 : HopIndex)] = 4 := by
  refine ⟨_, _, rfl, rfl, ?_, rfl, rfl⟩
  simp

theorem witness_ValidBits :
    ∃ t, exec (.update 4 20) base = .next t ∧ base.lutValid.getLsbD (4 : Channel).val = false ∧
      t.lutValid.getLsbD (4 : Channel).val = true := ⟨_, rfl, rfl, rfl⟩

/-- V-MEASURE rows 1, 2 and 7: the last index in bounds, the first out of bounds, and the greatest SIDX. -/
theorem witness_MeasureReads :
    (100 + 24 * Config.illustrative.symbolLen ≤ (flat 124).trace.length) ∧
      (flat 123).trace.length < 100 + 24 * Config.illustrative.symbolLen ∧
      (flat 124).trace.length < 4294967295 + 24 * Config.illustrative.symbolLen := by
  simp [flat, Config.illustrative]

/-- V-MEASURE row 1 and V-FREQ row 10. -/
theorem witness_MeasureReads_values :
    freqEstOf Config.illustrative (List.replicate 16 0xC009000000000000#64) = some (-50) ∧
      freqEstOf Config.illustrative (0x7FF8000000000000#64 :: List.replicate 15 0#64) = none := by decide +kernel

theorem witness_ReferenceEvaluationRefuses :
    isFinite 0x7FF8000000000000#64 = false ∧ isFinite 0xFFF0000000000000#64 = false ∧
      freqEstRef 19200 (List.replicate 16 0#64) = some (-9600) := by decide +kernel

/-- 1.0, the least subnormal and the greatest finite value; the number 1.0 stands for is not 0. -/
theorem witness_FloatOperations :
    isFinite 0x3FF0000000000000#64 = true ∧ isFinite 0x0000000000000001#64 = true ∧
      isFinite 0xFFEFFFFFFFFFFFFF#64 = true ∧ rationalOf 0x3FF0000000000000#64 ≠ 0 := by
  refine ⟨by decide, by decide, by decide, ?_⟩
  have h : unpackF64 0x3FF0000000000000#64 = .finite false 4503599627370496 (-52) := by decide
  rw [rationalOf, h]
  simp

theorem witness_DuplicatePacket :
    (withCache base [k1n]).running ∧ k1.length = base.cfg.pktLen ∧ k1.map rev8 ∈ (withCache base [k1n]).cache := by
  decide

theorem witness_NewKeyOnAFullCache :
    let s := withCache base [k1n, k2n, []]
    s.running ∧ k4.length = s.cfg.pktLen ∧ k4.map rev8 ∉ s.cache ∧
      (if s.cache.length < 2 ^ 32 then s.cacheCount.toNat else s.cache.length) = s.cfg.dedupDepth := by decide

/-- A cache with one place left. -/
theorem witness_PacketThatFailsTheChecksum :
    let s := withCache base [k1n, []]
    s.running ∧ k2.length = s.cfg.pktLen ∧ k2.map rev8 ∉ s.cache ∧ s.cacheSize ≠ s.cfg.dedupDepth ∧ s.cache.length + 1 < 2 ^ 32 ∧
      checksumOf s.cfg ((k2.map rev8).drop 2) ≠ 0 := by decide

theorem witness_ValidPacket :
    let s := withTrace base 400
    s.running ∧ k1.length = s.cfg.pktLen ∧ k1.map rev8 ∉ s.cache ∧ s.cacheSize ≠ s.cfg.dedupDepth ∧ s.cache.length + 1 < 2 ^ 32 ∧
      (k1.map rev8).drop 2 = 0x83 :: 0x0C :: 0xC8 :: [0x47] ∧ checksumOf s.cfg ((k1.map rev8).drop 2) = 0 ∧
      measureError s.cfg s.env (376#32).toNat = .ok (-50) ∧ (0xFFFFFFCE#32).toInt = s.curErr.toInt + (-50) ∧
      (0 : Channel) = s.cfg.hopPattern[s.hopIdx] := by decide +kernel

/-- One sample short, a NaN in the window, and a sum below s32. -/
theorem witness_PacketFaults :
    let s := withTrace base 123
    let t := { base with env := { trace := List.replicate 24 0x7FF8000000000000#64 } }
    let u := { withTrace base 124 with curErr := 0x80000000#32 }
    (s.running ∧ t.running ∧ u.running) ∧ k1.length = base.cfg.pktLen ∧ k1.map rev8 ∉ base.cache ∧
      base.cacheSize ≠ base.cfg.dedupDepth ∧ checksumOf base.cfg ((k1.map rev8).drop 2) = 0 ∧
      s.env.trace.length < (100#32).toNat + 24 * s.cfg.symbolLen ∧
      (0#32).toNat + 24 * t.cfg.symbolLen ≤ t.env.trace.length ∧
      freqEstOf t.cfg ((t.env.trace.drop ((0#32).toNat + 8 * t.cfg.symbolLen)).take (16 * t.cfg.symbolLen)) = none ∧
      measureError u.cfg u.env (100#32).toNat = .ok (-50) ∧ u.curErr.toInt + -50 < -2147483648 := by
  decide +kernel

/-- For PacketCommandsComputeTheBatchFunction and SeenPolicyDoesNotChangeWhatDecodes. -/
theorem witness_PacketCommands :
    let s : State := { base with input := .command (encode .batch) base.env base.draws ::
      ([⟨k1, 100, flat 124⟩, ⟨k2, 100, flat 0⟩].map (RawPacket.event base.draws) ++ []) }
    s.running ∧ s.Inv ∧ (∀ p ∈ [k1, k2], p.length = s.cfg.pktLen) ∧
      ∃ t rs, runCollect 3 s = some (t, rs) ∧ t.running := by
  intro s
  have h : (runCollect 3 s).map (fun p => p.1.fault) = some .noFault := by decide +kernel
  obtain ⟨⟨t, rs⟩, hp, hf⟩ := Option.map_eq_some_iff.mp h
  exact ⟨rfl, ⟨by decide, by decide, by decide, by decide, by decide⟩, by decide, t, rs, hp, hf⟩

theorem witness_FaultsArePrecise :
    ∃ t, base.running ∧ exec (.read 9) base = .next t ∧ ¬ t.running := ⟨_, rfl, rfl, by decide⟩

theorem witness_OnlyResetClears :
    ∃ t, ¬ stopped.running ∧ step (given stopped (word 0x00000001#32)) = .next t ∧
      ∀ rest, (given stopped (word 0x00000001#32)).input ≠ .reset :: rest :=
  ⟨_, by decide, rfl, by simp [given]⟩

/-- A next state in which HOP_IDX, and one in which CUR_ERR and an entry, differ from before. -/
theorem witness_OnlyTheNamedCommands :
    (∃ t, exec .advance base = .next t ∧ t.hopIdx ≠ base.hopIdx) ∧
      ∃ t, exec (.update 4 20) base = .next t ∧ t.curErr ≠ base.curErr ∧
        t.lutVal[(4 : Channel)] ≠ base.lutVal[(4 : Channel)] ∧
        t.lutValid.getLsbD (4 : Channel).val ≠ base.lutValid.getLsbD (4 : Channel).val :=
  ⟨⟨_, rfl, by decide⟩, _, rfl, by decide, by decide, by decide⟩

/-- The invariant holds of a cache that is full. -/
theorem witness_EveryStepKeepsTheInvariant :
    (withCache base [k1n, k2n, k4.map rev8]).Inv ∧
      ∃ t, step (given (withCache base [k1n, k2n, k4.map rev8]) (encode .batch)) = .next t :=
  ⟨⟨by decide, by decide, by decide, by decide, by decide⟩, _, rfl⟩

theorem witness_InvariantHoldsAtReset : Config.illustrative.wf = true := by decide

/-- Two states that differ in a hidden entry and in the order of CACHE. -/
theorem witness_HiddenState :
    let s := withCache base [k1n, k2n]
    let t := { withCache base [k2n, k1n] with lutVal := Vector.replicate 9 5 }
    s.SameToHost t ∧ s ≠ t :=
  ⟨⟨rfl, rfl, rfl, rfl, by decide, by decide, rfl, rfl, rfl, rfl, rfl, rfl⟩, by decide⟩

end Sys2Proof.Tests
end

section
/-! PROOFS. What the meaning of a command writes and answers, said once for every command. -/

namespace Sys2Proof.Machine

/-- The ways a command can end but by raising a fault: the state it leaves, apart from the response field, and its
response. -/
inductive Completes (s : State) : Instr → State → Response → Prop
  /-- ADVANCE and RESYNC write HOP_IDX, and CUR_ERR where DESCRIBE loads it (R111, R112, R114). -/
  | hop {i : Instr} (hi : i = .advance ∨ i = .resync) (j : HopIndex) (v : Word32) (d : Descriptor) :
      Completes s i ((s.setHopIdx j).setCurErr v) (descriptorResponse d)
  /-- READ, DWELL and STATUS write nothing (R131, R116, R200), nor does a command a faulted block refuses (R225). -/
  | unchanged {i : Instr} {r : Response} (hr : r.pay = []) : Completes s i s r
  /-- UPDATE writes CUR_ERR and the entry of the channel it names (R134). -/
  | update (k : Channel) (delta v : Word32) :
      Completes s (.update (BitVec.ofNat 4 k.val) delta) ((s.setCurErr v).writeLut k v) okResponse
  /-- BATCH empties the cache (R151). -/
  | batch : Completes s .batch s.clearCache okResponse
  /-- A duplicate packet writes nothing (R154). -/
  | duplicate (pkt : List Byte) (sidx : Word32) : Completes s (.packet pkt sidx) s droppedResponse
  /-- A packet that fails the checksum leaves its key in the cache (R161). -/
  | failed (pkt : List Byte) (sidx : Word32) (b : List Byte) :
      Completes s (.packet pkt sidx) (s.insertKey b) droppedResponse
  /-- An accepted packet writes the cache, CUR_ERR and the entry of the channel in use (R159, R160). -/
  | accepted (pkt : List Byte) (sidx : Word32) (b : List Byte) (v : Word32) (m : Message) :
      Completes s (.packet pkt sidx) (((s.insertKey b).setCurErr v).writeLut s.currentChannel v) (messageResponse m)

/-- Both hop commands end in a write of HOP_IDX and of CUR_ERR, which may keep its value. -/
theorem hopTo_eq (s : State) (j : HopIndex) :
    ∃ v d, hopTo s j = .ok ((s.setHopIdx j).setCurErr v, descriptorResponse d) := by
  rcases describe_cases (s.setHopIdx j) with ⟨-, h⟩ | ⟨-, h⟩
  · exact ⟨_, _, by rw [hopTo, h]⟩
  · exact ⟨s.curErr, _, by rw [hopTo, h]; rfl⟩

theorem readEntry_pay (s : State) (k : Channel) : (readEntry s k).pay = [] := by
  unfold readEntry
  split <;> rfl

/-- The 4-bit operand of a channel index is that index. -/
theorem eq_ofNat_of_channelOperand {ch : BitVec 4} {k : Channel} (h : channelOperand ch = some k) :
    ch = BitVec.ofNat 4 k.val := by
  by_cases hlt : ch.toNat < 9
  · rw [channelOperand_of_lt hlt] at h
    rw [← Option.some.inj h, BitVec.ofNat_toNat, BitVec.setWidth_eq]
  · rw [channelOperand_of_ge (not_lt.mp hlt)] at h
    cases h

theorem completes_of_decodePacket {s u : State} {r : Response} {pkt b : List Byte} {sidx : Word32}
    (h : decodePacket b sidx s = .ok (u, r)) : Completes s (.packet pkt sidx) u r := by
  rcases decodePacket_cases b sidx s with ⟨-, hd⟩ | ⟨-, -, hd⟩ | ⟨-, -, -, hd⟩ | ⟨-, -, -, hd⟩ <;> rw [hd] at h
  · cases h; exact .duplicate pkt sidx
  · cases h
  · cases h; exact .failed pkt sidx b
  · rcases acceptPacket_cases b sidx (s.insertKey b) with ⟨c, -, ha⟩ | ⟨e, -, -, ha⟩ | ⟨e, -, -, ha⟩ <;> rw [ha] at h
    · cases h
    · cases h
    · cases h; exact .accepted pkt sidx b _ _

/-- An effect without a fault is one of the ways to complete. -/
theorem completes_of_effectOf {i : Instr} {s u : State} {r : Response} (h : effectOf i s = .ok (u, r)) :
    Completes s i u r := by
  cases i with
  | advance =>
    obtain ⟨v, d, hd⟩ := hopTo_eq s (nextHop s.hopIdx)
    cases hd.symm.trans h
    exact .hop (.inl rfl) _ v d
  | resync =>
    obtain ⟨v, d, hd⟩ := hopTo_eq s s.draws.hop
    cases hd.symm.trans h
    exact .hop (.inr rfl) _ v d
  | read ch =>
    cases hk : channelOperand ch with
    | none => simp [effectOf, hk] at h
    | some k =>
      simp only [effectOf, hk] at h
      cases h
      exact .unchanged (readEntry_pay s k)
  | update ch delta =>
    cases hk : channelOperand ch with
    | none => simp [effectOf, hk] at h
    | some k =>
      rcases trackUpdate_cases k (deltaOperand delta) s with ⟨-, ht⟩ | ⟨-, ht⟩
      · simp [effectOf, hk, ht] at h
      · simp only [effectOf, hk, ht] at h
        cases h
        rw [eq_ofNat_of_channelOperand hk]
        exact .update k delta _
  | batch => cases h; exact .batch
  | packet pkt sidx => exact completes_of_decodePacket h
  | dwell => cases h; exact .unchanged rfl
  | status => cases h; exact .unchanged rfl

/-- Only READ, UPDATE and PACKET have steps that fault. -/
theorem faulting_of_effectOf {i : Instr} {s : State} {c : FaultCode} (h : effectOf i s = .error c) :
    (∃ ch, i = .read ch) ∨ (∃ ch d, i = .update ch d) ∨ ∃ pkt sidx, i = .packet pkt sidx := by
  cases i with
  | read ch => exact .inl ⟨ch, rfl⟩
  | update ch d => exact .inr (.inl ⟨ch, d, rfl⟩)
  | packet pkt sidx => exact .inr (.inr ⟨pkt, sidx, rfl⟩)
  | advance => cases h
  | resync => cases h
  | batch => cases h
  | dwell => cases h
  | status => cases h

/-- Everything a command can do: raise a fault on the state before it, or end in one of the ways of `Completes`. -/
theorem exec_writes {i : Instr} {s t : State} (h : exec i s = .next t) :
    (s.fault = .noFault ∧ ∃ c, effectOf i s = .error c ∧ t = s.raiseFault c) ∨
    ∃ u r, t = u.respond r ∧ Completes s i u r := by
  rcases exec_cases h with ⟨-, rfl⟩ | ⟨-, -, rfl⟩ | ⟨-, hf, c, he, rfl⟩ | ⟨-, -, u, r, he, rfl⟩
  · exact .inr ⟨s, _, rfl, .unchanged rfl⟩
  · exact .inr ⟨s, _, rfl, .unchanged rfl⟩
  · exact .inl ⟨hf, c, he, rfl⟩
  · exact .inr ⟨u, r, rfl, completes_of_effectOf he⟩

/-- A command stops nothing: it has a next state. -/
theorem exists_exec_eq_next (i : Instr) (s : State) : ∃ t, exec i s = .next t := by
  by_cases hi : i = .status
  · exact ⟨_, hi ▸ exec_status s⟩
  · exact ⟨_, exec_eq_runCommand hi s⟩

end Sys2Proof.Machine
end

section
/-! PROOFS. What every command leaves as it was, and which commands write each element (R20 to R23, R26, R27). -/

namespace Sys2Proof.Machine

theorem writeLut_lutVal_of_ne {s : State} {j k : Channel} {v : Word32} (h : k ≠ j) :
    (s.writeLut k v).lutVal[j] = s.lutVal[j] := by
  simp [Vector.getElem_set_ne, Fin.val_ne_of_ne h]

theorem writeLut_lutValid_of_ne {s : State} {j k : Channel} {v : Word32} (h : k ≠ j) :
    (s.writeLut k v).lutValid.getLsbD j.val = s.lutValid.getLsbD j.val := by
  have hbit := lutValidBit_setLutValid s.lutValid k j
  rw [decide_eq_false (Ne.symm h), Bool.or_false] at hbit
  exact hbit

namespace Completes

variable {s u : State} {i : Instr} {r : Response}

/-- No command writes the configuration, the host's events, the env, the draws or, without a fault, FAULT. -/
theorem frame (h : Completes s i u r) :
    u.cfg = s.cfg ∧ u.input = s.input ∧ u.env = s.env ∧ u.draws = s.draws ∧ u.fault = s.fault := by
  cases h <;> exact ⟨rfl, rfl, rfl, rfl, rfl⟩

theorem writer_of_hopIdx (h : Completes s i u r) (hne : u.hopIdx ≠ s.hopIdx) : i = .advance ∨ i = .resync := by
  cases h with
  | hop hi => exact hi
  | unchanged | update | batch | duplicate | failed | accepted => exact absurd rfl hne

theorem writer_of_curErr (h : Completes s i u r) (hne : u.curErr ≠ s.curErr) :
    i = .advance ∨ i = .resync ∨ (∃ ch d, i = .update ch d) ∨ ∃ p x, i = .packet p x := by
  cases h with
  | hop hi => exact hi.imp_right .inl
  | update k delta => exact .inr (.inr (.inl ⟨_, delta, rfl⟩))
  | accepted pkt sidx => exact .inr (.inr (.inr ⟨pkt, sidx, rfl⟩))
  | unchanged | batch | duplicate | failed => exact absurd rfl hne

/-- Both halves of a LUT entry are written by an UPDATE of its channel or a PACKET on it alone. -/
theorem writer_of_entry (h : Completes s i u r) {k : Channel}
    (hne : ¬ (u.lutVal[k] = s.lutVal[k] ∧ u.lutValid.getLsbD k.val = s.lutValid.getLsbD k.val)) :
    (∃ d, i = .update (BitVec.ofNat 4 k.val) d) ∨ (k = s.currentChannel ∧ ∃ p x, i = .packet p x) := by
  cases h with
  | update j delta =>
    by_cases hj : j = k
    · exact .inl ⟨delta, hj ▸ rfl⟩
    · exact absurd ⟨writeLut_lutVal_of_ne hj, writeLut_lutValid_of_ne hj⟩ hne
  | accepted pkt sidx =>
    by_cases hj : s.currentChannel = k
    · exact .inr ⟨hj.symm, pkt, sidx, rfl⟩
    · exact absurd ⟨writeLut_lutVal_of_ne hj, writeLut_lutValid_of_ne hj⟩ hne
  | hop | unchanged | batch | duplicate | failed => exact absurd ⟨rfl, rfl⟩ hne

theorem writer_of_cache (h : Completes s i u r) (hne : u.cache ≠ s.cache ∨ u.cacheCount ≠ s.cacheCount) :
    i = .batch ∨ ∃ p x, i = .packet p x := by
  cases h with
  | batch => exact .inl rfl
  | failed pkt sidx => exact .inr ⟨pkt, sidx, rfl⟩
  | accepted pkt sidx => exact .inr ⟨pkt, sidx, rfl⟩
  | duplicate pkt sidx => exact .inr ⟨pkt, sidx, rfl⟩
  | hop | unchanged | update => exact absurd rfl (hne.resolve_left (not_not.mpr rfl))

/-- PAY is empty but for an accepted PACKET (R78). -/
theorem accepted_of_pay (h : Completes s i u r) (hpay : r.pay ≠ []) :
    (∃ pkt sidx, i = .packet pkt sidx) ∧ ∃ m, r = messageResponse m := by
  cases h with
  | accepted pkt sidx b v m => exact ⟨⟨pkt, sidx, rfl⟩, m, rfl⟩
  | unchanged hr => exact absurd hr hpay
  | hop | update | batch | duplicate | failed => exact absurd rfl hpay

end Completes

/-- Settles O53: a fault writes FAULT alone, and every other end of a command is one of `Completes`. -/
theorem onlyTheNamedCommandsWriteEachElement : Obligations.OnlyTheNamedCommandsWriteEachElement := by
  intro i s t h
  rcases exec_writes h with ⟨hf, c, he, rfl⟩ | ⟨u, r, rfl, hc⟩
  · exact ⟨rfl, rfl, rfl, rfl, fun hne => absurd rfl hne, fun hne => absurd rfl hne, fun _ hne => absurd rfl hne,
      fun _ hne => absurd rfl hne, fun hne => absurd rfl (hne.resolve_left (not_not.mpr rfl)),
      fun _ => ⟨hf, faulting_of_effectOf he⟩⟩
  · obtain ⟨hcfg, hinput, henv, hdraws, hfault⟩ := hc.frame
    exact ⟨hcfg, hinput, henv, hdraws, hc.writer_of_hopIdx, hc.writer_of_curErr,
      fun k hne => hc.writer_of_entry fun hk => hne hk.1, fun k hne => hc.writer_of_entry fun hk => hne hk.2,
      hc.writer_of_cache, fun hne => absurd hfault hne⟩

end Sys2Proof.Machine
end

section
/-! PROOFS. The step: the decoded command, its response (R12, R78). -/

namespace Sys2Proof.Machine

theorem step_of_command {s : State} {record : CommandRecord} {env : Env} {draws : Draws} {rest : List Event} {i : Instr}
    (hin : s.input = .command record env draws :: rest) (hdec : decode s.cfg.pktLen record = .command i) :
    step s = exec i (s.present rest env draws) := by
  simp [step, hin, hdec]

theorem step_of_illegal {s : State} {record : CommandRecord} {env : Env} {draws : Draws} {rest : List Event}
    {why : IllegalWord} (hin : s.input = .command record env draws :: rest)
    (hdec : decode s.cfg.pktLen record = .illegal why) : step s = .next (s.present rest env draws).illegalWord := by
  simp [step, hin, hdec]

/-- No step ends in a stopping fault or a refusal. -/
theorem exists_step_eq_next (s : State) : ∃ t, step s = .next t := by
  cases hin : s.input with
  | nil => exact ⟨s, by simp [step, hin]⟩
  | cons event rest =>
    cases event with
    | reset => exact ⟨_, by simp only [step, hin]; rfl⟩
    | command record env draws =>
      cases hdec : decode s.cfg.pktLen record with
      | command i =>
        obtain ⟨t, ht⟩ := exists_exec_eq_next i (s.present rest env draws)
        exact ⟨t, (step_of_command hin hdec).trans ht⟩
      | illegal why => exact ⟨_, step_of_illegal hin hdec⟩

theorem getLsbD_zero_append_one {n : Nat} (hi : BitVec n) : (hi ++ 1#1).getLsbD 0 = true := by
  simp [BitVec.getLsbD_append]

/-- ACCEPT is the lowest bit of a message's W0 (R84). -/
theorem messageResponse_accept (m : Message) : (messageResponse m).w0.getLsbD 0 = true :=
  getLsbD_zero_append_one _

/-- Code 3 of RS is never returned (R78). -/
theorem ResponseStatus.bits_ne_three (rs : ResponseStatus) : rs.bits ≠ 3 := by
  cases rs <;> decide

/-- A command answers, and PAY is empty but for an accepted PACKET. -/
theorem exec_answer {i : Instr} {s t : State} (h : exec i s = .next t) :
    t.input = s.input ∧ ∃ a, t.resp = some a ∧
      (a.pay ≠ [] → (∃ pkt sidx, i = .packet pkt sidx) ∧ ∃ m, a = messageResponse m) := by
  rcases exec_writes h with ⟨-, c, -, rfl⟩ | ⟨u, r, rfl, hc⟩
  · exact ⟨rfl, faultResponse c, rfl, fun hpay => absurd rfl hpay⟩
  · obtain ⟨-, hinput, -⟩ := hc.frame
    exact ⟨hinput, r, rfl, hc.accepted_of_pay⟩

/-- An illegal word is answered with an empty PAY. -/
theorem illegalWord_answer (s : State) :
    s.illegalWord.input = s.input ∧ ∃ a, s.illegalWord.resp = some a ∧ a.pay = [] := by
  rcases runCommand_cases s (.error .illegalCmd) with ⟨-, hr⟩ | ⟨-, c, -, hr⟩ | ⟨-, t, r, he, -⟩
  · rw [State.illegalWord, hr]
    exact ⟨rfl, _, rfl, rfl⟩
  · rw [State.illegalWord, hr]
    exact ⟨rfl, _, rfl, rfl⟩
  · cases he

/-- Settles O7. -/
theorem stepRunsTheDecodedCommand : Obligations.StepRunsTheDecodedCommand :=
  fun _ _ _ _ _ _ hin hdec => step_of_command hin hdec

/-- Settles O9: a command is legal, and `exec_answer` holds, or its word is illegal. -/
theorem everyCommandGetsAResponse : Obligations.EveryCommandGetsAResponse := by
  intro s
  obtain ⟨t, ht⟩ := exists_step_eq_next s
  refine ⟨t, ht, fun record env draws rest hin => ?_⟩
  cases hdec : decode s.cfg.pktLen record with
  | command i =>
    rw [step_of_command hin hdec] at ht
    obtain ⟨hinput, a, ha, hpay⟩ := exec_answer ht
    refine ⟨hinput, a, ha, a.rs.bits_ne_three, fun hne => ?_⟩
    obtain ⟨⟨pkt, sidx, rfl⟩, m, rfl⟩ := hpay hne
    exact ⟨⟨pkt, sidx, rfl⟩, rfl, messageResponse_accept m⟩
  | illegal why =>
    rw [step_of_illegal hin hdec] at ht
    cases ht
    obtain ⟨hinput, a, ha, hpay⟩ := illegalWord_answer (s.present rest env draws)
    exact ⟨hinput, a, ha, a.rs.bits_ne_three, fun hne => absurd hpay hne⟩

end Sys2Proof.Machine
end

section
/-! PROOFS. The binary64 operations and `trunc` against the rational numbers their operands stand for (R11). -/

namespace Sys2Proof.Machine

theorem isFinite_eq_false_iff (x : F64) : isFinite x = false ↔ x.toNat / 2 ^ 52 % 2 ^ 11 = 2047 := by
  have hx := x.isLt
  rw [← Bool.not_eq_true, (unpackF64_of_magnitude x).1]
  omega

theorem truncF64_of_not_finite {x : F64} (h : isFinite x = false) : truncF64 x = none := by
  cases hu : unpackF64 x with
  | nan => simp [truncF64, hu]
  | inf s => simp [truncF64, hu]
  | finite s m e => simp [isFinite, hu] at h

/-- An operand of `fadd` in units of `2^low`, the lower of the two exponents. -/
theorem signedShift_mul_zpow (s : Bool) (m : ℕ) {e low : ℤ} (h : low ≤ e) :
    ((signedShift s m (e - low).toNat : ℤ) : ℚ) * (2 : ℚ) ^ low = signRat s * m * (2 : ℚ) ^ e := by
  rw [signedShift_cast, mul_assoc, ← zpow_natCast, ← zpow_add₀ two_ne_zero, Int.toNat_of_nonneg (by omega),
    sub_add_cancel]

theorem isRoundedToNearest_fadd {x y : F64} (hx : isFinite x = true) (hy : isFinite y = true) :
    IsRoundedToNearest (fadd x y) (rationalOf x + rationalOf y) := by
  obtain ⟨s, m, e, hux, hqx⟩ := finite_cases hx
  obtain ⟨s', m', e', huy, hqy⟩ := finite_cases hy
  simp only [fadd, hux, huy, hqx, hqy]
  rw [← signedShift_mul_zpow s m (min_le_left e e'), ← signedShift_mul_zpow s' m' (min_le_right e e'), ← add_mul,
    ← Int.cast_add]
  generalize signedShift s m _ + signedShift s' m' _ = sum
  split
  · rename_i h0
    exact roundF64_spec _ 0 one_pos _ (by simp [h0])
  · refine roundF64_spec _ _ one_pos _ ?_
    rw [Nat.cast_one, div_one, ← mul_assoc, signRat_mul_natAbs]

theorem isRoundedToNearest_fmul {x y : F64} (hx : isFinite x = true) (hy : isFinite y = true) :
    IsRoundedToNearest (fmul x y) (rationalOf x * rationalOf y) := by
  obtain ⟨s, m, e, hux, hqx⟩ := finite_cases hx
  obtain ⟨s', m', e', huy, hqy⟩ := finite_cases hy
  simp only [fmul, hux, huy, hqx, hqy]
  refine roundF64_spec _ _ one_pos _ ?_
  rw [signRat_xor, zpow_add₀ two_ne_zero]
  push_cast
  ring

theorem signRat_inv (b : Bool) : (signRat b)⁻¹ = signRat b := by
  cases b <;> norm_num [signRat]

theorem isRoundedToNearest_fdiv {x y : F64} (hx : isFinite x = true) (hy : isFinite y = true)
    (hy0 : rationalOf y ≠ 0) : IsRoundedToNearest (fdiv x y) (rationalOf x / rationalOf y) := by
  obtain ⟨s, m, e, hux, hqx⟩ := finite_cases hx
  obtain ⟨s', m', e', huy, hqy⟩ := finite_cases hy
  have hm' : m' ≠ 0 := by
    rintro rfl
    exact hy0 (by simp [hqy])
  simp only [fdiv, hux, huy, hqx, hqy, if_neg hm']
  refine roundF64_spec _ _ (Nat.pos_of_ne_zero hm') _ ?_
  rw [signRat_xor, zpow_sub₀ two_ne_zero, div_eq_mul_inv, mul_inv, mul_inv, signRat_inv]
  ring

theorem isRoundedToNearest_f64OfNat (n : ℕ) : IsRoundedToNearest (f64OfNat n) n :=
  roundF64_spec false n one_pos 0 (by simp [signRat])

/-- Settles O36: each operation is one `roundF64` of the exact result. -/
theorem floatOperationsRoundToNearest : Obligations.FloatOperationsRoundToNearest :=
  ⟨fun _ _ hx hy => ⟨isRoundedToNearest_fadd hx hy, isRoundedToNearest_fmul hx hy, isRoundedToNearest_fdiv hx hy⟩,
    isRoundedToNearest_f64OfNat⟩

/-- The magnitude `trunc` computes is the floor of `m * 2^e`. -/
theorem shifted_magnitude_eq_floor (m : ℕ) (e : ℤ) :
    m * 2 ^ e.toNat / 2 ^ (-e).toNat = ⌊(m : ℚ) * (2 : ℚ) ^ e⌋₊ := by
  have h := scaled_ratio m 1 (-e)
  rw [neg_neg, Nat.cast_one, one_mul, div_one, zpow_neg, div_inv_eq_mul] at h
  rw [← h, ← Nat.floor_div_eq_div (K := ℚ)]
  simp only [Nat.cast_mul, Nat.cast_pow, Nat.cast_ofNat]

/-- A signed magnitude truncated toward zero. -/
theorem signRat_floor_toward_zero (s : Bool) {y : ℚ} (hy : 0 ≤ y) :
    |signRat s * ⌊y⌋₊| ≤ |signRat s * y| ∧ |signRat s * y| < |signRat s * ⌊y⌋₊| + 1 ∧
      0 ≤ signRat s * ⌊y⌋₊ * (signRat s * y) := by
  have habs : ∀ q : ℚ, 0 ≤ q → |signRat s * q| = q := by
    intro q hq
    cases s <;> simp [signRat, abs_of_nonneg hq]
  have hfloor : (0 : ℚ) ≤ ⌊y⌋₊ := Nat.cast_nonneg _
  rw [habs _ hy, habs _ hfloor]
  refine ⟨Nat.floor_le hy, Nat.lt_floor_add_one y, ?_⟩
  rw [mul_mul_mul_comm]
  exact mul_nonneg (mul_self_nonneg _) (mul_nonneg hfloor hy)

theorem truncF64_of_finite {x : F64} (h : isFinite x = true) :
    ∃ (s : Bool) (y : ℚ) (v : ℤ), 0 ≤ y ∧ rationalOf x = signRat s * y ∧ (v : ℚ) = signRat s * ⌊y⌋₊ ∧
      truncF64 x = some v := by
  obtain ⟨s, m, e, hu, hq⟩ := finite_cases h
  refine ⟨s, m * (2 : ℚ) ^ e, if s then -(⌊(m : ℚ) * (2 : ℚ) ^ e⌋₊ : ℤ) else ⌊(m : ℚ) * (2 : ℚ) ^ e⌋₊,
    by positivity, by rw [hq, mul_assoc], ?_, by simp only [truncF64, hu, shifted_magnitude_eq_floor]⟩
  cases s <;> simp [signRat]

/-- Settles O37. -/
theorem truncIsTheIntegerPartTowardZero : Obligations.TruncIsTheIntegerPartTowardZero := by
  intro x
  refine ⟨isFinite_eq_false_iff x, truncF64_of_not_finite, fun h => ?_⟩
  obtain ⟨s, y, v, hy, hx, hv, ht⟩ := truncF64_of_finite h
  rw [hx]
  exact ⟨v, ht, hv ▸ signRat_floor_toward_zero s hy⟩

end Sys2Proof.Machine
end

section
/-! PROOFS. Every step keeps the invariant of the block (R20, R26, R28). -/

namespace Sys2Proof.Machine

/-- An illegal word leaves the state before it but for FAULT and the response (R76 verdicts 1 and 2). -/
theorem illegalWord_cases (s : State) :
    (s.fault ≠ .noFault ∧ s.illegalWord = s.answerFaulted) ∨
    (s.fault = .noFault ∧ s.illegalWord = s.raiseFault .illegalCmd) := by
  by_cases h : s.fault = .noFault
  · exact .inr ⟨h, runCommand_of_running h _⟩
  · exact .inl ⟨h, runCommand_of_faulted h _⟩

namespace State.Inv

variable {s t u : State} {i : Instr} {r : Response}

/-- PACKET inserts a key only where it is new and CACHE has room for it. -/
theorem of_decodePacket {b : List Byte} {sidx : Word32} (hs : s.Inv) (hlen : b.length = s.cfg.pktLen)
    (h : decodePacket b sidx s = .ok (u, r)) : u.Inv := by
  rcases decodePacket_cases b sidx s with ⟨-, hd⟩ | ⟨-, -, hd⟩ | ⟨hnew, hroom, -, hd⟩ | ⟨hnew, hroom, -, hd⟩ <;>
    rw [hd] at h
  · cases h; exact hs
  · cases h
  · cases h; exact hs.insertKey hnew hroom hlen
  · rcases acceptPacket_cases b sidx (s.insertKey b) with ⟨c, -, ha⟩ | ⟨e, -, -, ha⟩ | ⟨e, -, -, ha⟩ <;> rw [ha] at h
    · cases h
    · cases h
    · cases h; exact (hs.insertKey hnew hroom hlen).of_same rfl rfl rfl

theorem of_effectOf (hs : s.Inv) (h : effectOf i s = .ok (u, r)) : u.Inv := by
  cases completes_of_effectOf h with
  | hop | unchanged | update => exact hs.of_same rfl rfl rfl
  | batch => exact .of_empty hs.config_wf rfl rfl
  | duplicate | failed | accepted => exact hs.of_decodePacket (revPkt_length _ _) h

theorem of_exec (hs : s.Inv) (h : exec i s = .next t) : t.Inv := by
  rcases exec_cases h with ⟨-, rfl⟩ | ⟨-, -, rfl⟩ | ⟨-, -, c, -, rfl⟩ | ⟨-, -, u, r, he, rfl⟩
  · exact hs.of_same rfl rfl rfl
  · exact hs.of_same rfl rfl rfl
  · exact hs.of_same rfl rfl rfl
  · exact (hs.of_effectOf he).of_same rfl rfl rfl

theorem present (hs : s.Inv) (rest : List Event) (env : Env) (draws : Draws) : (s.present rest env draws).Inv :=
  hs.of_same rfl rfl rfl

theorem of_illegalWord (hs : s.Inv) : s.illegalWord.Inv := by
  rcases illegalWord_cases s with ⟨-, h⟩ | ⟨-, h⟩ <;> exact h ▸ hs.of_same rfl rfl rfl

end State.Inv

/-- Settles O54, by the cases of a step. -/
theorem everyStepKeepsTheInvariant : Obligations.EveryStepKeepsTheInvariant := by
  intro s t hs h
  rcases step_cases h with ⟨-, rfl⟩ | ⟨rest, -, rfl⟩ | ⟨_, env, draws, rest, _, -, -, rfl⟩ |
    ⟨_, env, draws, rest, i, -, -, hexec⟩
  · exact hs
  · exact .of_empty hs.config_wf rfl rfl
  · exact (hs.present rest env draws).of_illegalWord
  · exact (hs.present rest env draws).of_exec hexec

end Sys2Proof.Machine
end

section
/-! PROOFS. The value of an invalid LUT entry and the order of CACHE do not show (R24, R26, R33): each operation, and so
each command, takes two states the host cannot tell apart to two such states. -/

namespace Sys2Proof.Machine

/-- Two effects the host cannot tell apart: the same fault, or the same response and states that are the same to it. -/
inductive SameEffect : Effect → Effect → Prop
  | error (c : FaultCode) : SameEffect (.error c) (.error c)
  | ok {u v : State} (r : Response) (h : u.SameToHost v) : SameEffect (.ok (u, r)) (.ok (v, r))

namespace State.SameToHost

variable {s t : State}

/-! ### The writes of the state -/

theorem setHopIdx (h : s.SameToHost t) (j : HopIndex) : (s.setHopIdx j).SameToHost (t.setHopIdx j) :=
  { h with hop_eq := rfl }

theorem setCurErr (h : s.SameToHost t) (v : Word32) : (s.setCurErr v).SameToHost (t.setCurErr v) :=
  { h with err_eq := rfl }

/-- The entry that is written becomes valid in both states, with the same value. -/
theorem writeLut (h : s.SameToHost t) (k : Channel) (v : Word32) : (s.writeLut k v).SameToHost (t.writeLut k v) :=
  { h with
    valid_eq := congrArg (setLutValid · k) h.valid_eq
    val_eq := fun j hj => by
      by_cases hkj : k = j
      · subst hkj
        simp
      · rw [writeLut_lutVal_of_ne hkj, writeLut_lutVal_of_ne hkj]
        refine h.val_eq j ?_
        simpa [Ne.symm hkj] using hj }

theorem insertKey (h : s.SameToHost t) (b : List Byte) : (s.insertKey b).SameToHost (t.insertKey b) :=
  { h with
    cache_perm := h.cache_perm.append_right [b]
    count_eq := countAfterInsertion_congr h.cache_perm.length_eq h.count_eq }

theorem clearCache (h : s.SameToHost t) : s.clearCache.SameToHost t.clearCache :=
  { h with cache_perm := .nil, count_eq := rfl }

theorem respond (h : s.SameToHost t) (r : Response) : (s.respond r).SameToHost (t.respond r) :=
  { h with resp_eq := rfl }

theorem takeEvent (h : s.SameToHost t) (rest : List Event) :
    { s with input := rest }.SameToHost { t with input := rest } :=
  { h with input_eq := rfl }

theorem present (h : s.SameToHost t) (rest : List Event) (env : Env) (draws : Draws) :
    (s.present rest env draws).SameToHost (t.present rest env draws) :=
  { h with input_eq := rfl, env_eq := rfl, draws_eq := rfl }

theorem raiseFault (h : s.SameToHost t) (c : FaultCode) : (s.raiseFault c).SameToHost (t.raiseFault c) :=
  { h with fault_eq := rfl, resp_eq := rfl }

theorem answerFaulted (h : s.SameToHost t) : s.answerFaulted.SameToHost t.answerFaulted := by
  unfold State.answerFaulted
  rw [h.fault_eq]
  exact h.respond _

theorem resetBlock (h : s.SameToHost t) : s.resetBlock.SameToHost t.resetBlock :=
  ⟨h.cfg_eq, rfl, rfl, rfl, fun _ _ => rfl, .nil, rfl, rfl, h.input_eq, h.env_eq, h.draws_eq, rfl⟩

/-! ### The operations of the units -/

theorem currentChannel_eq (h : s.SameToHost t) : s.currentChannel = t.currentChannel := by
  simp only [State.currentChannel, h.cfg_eq, h.hop_eq]

theorem cacheSize_eq (h : s.SameToHost t) : s.cacheSize = t.cacheSize :=
  cacheSize_congr h.cache_perm.length_eq h.count_eq

/-- READ shows an entry only where it is valid (R132). -/
theorem readEntry_eq (h : s.SameToHost t) (k : Channel) : readEntry s k = readEntry t k := by
  unfold readEntry
  rw [← h.valid_eq, h.draws_eq]
  split
  case isTrue hk => rw [h.val_eq k hk]
  case isFalse => rfl

theorem statusResponse_eq (h : s.SameToHost t) : statusResponse s = statusResponse t := by
  unfold statusResponse
  rw [h.valid_eq, h.fault_eq, h.hop_eq, h.err_eq, h.count_eq]

/-- DESCRIBE loads an entry only where it is valid (R111). -/
theorem describe_same (h : s.SameToHost t) :
    (describe s).1.SameToHost (describe t).1 ∧ (describe s).2 = (describe t).2 := by
  simp only [describe, h.currentChannel_eq, h.cfg_eq, ← h.valid_eq]
  split
  case isTrue hk =>
    rw [h.val_eq _ hk]
    exact ⟨h.setCurErr _, rfl⟩
  case isFalse => exact ⟨h, by rw [h.err_eq]⟩

theorem hopTo_same (h : s.SameToHost t) (j : HopIndex) : SameEffect (hopTo s j) (hopTo t j) := by
  obtain ⟨hstate, hdesc⟩ := (h.setHopIdx j).describe_same
  simp only [hopTo, hdesc]
  exact .ok _ hstate

theorem trackUpdate_same (h : s.SameToHost t) (k : Channel) (delta : Int) :
    (∃ c, trackUpdate k delta s = .error c ∧ trackUpdate k delta t = .error c) ∨
    (∃ u v, trackUpdate k delta s = .ok u ∧ trackUpdate k delta t = .ok v ∧ u.SameToHost v) := by
  unfold trackUpdate
  rw [h.err_eq]
  dsimp only
  split
  · exact .inr ⟨_, _, rfl, rfl, (h.setCurErr _).writeLut k _⟩
  · exact .inl ⟨_, rfl, rfl⟩

theorem acceptPacket_same (h : s.SameToHost t) (b : List Byte) (sidx : Word32) :
    SameEffect (acceptPacket b sidx s) (acceptPacket b sidx t) := by
  unfold acceptPacket
  rw [h.cfg_eq, h.env_eq, h.currentChannel_eq]
  cases measureError t.cfg t.env (sampleIndexOperand sidx) with
  | error c => exact .error c
  | ok e =>
    rcases h.trackUpdate_same t.currentChannel e with ⟨c, hs, ht⟩ | ⟨u, v, hs, ht, huv⟩
    · simpa only [hs, ht] using .error c
    · simpa only [hs, ht] using .ok _ huv

/-- PACKET reads CACHE through membership and size alone (R152). -/
theorem decodePacket_same (h : s.SameToHost t) (b : List Byte) (sidx : Word32) :
    SameEffect (decodePacket b sidx s) (decodePacket b sidx t) := by
  simp only [decodePacket, h.cache_perm.mem_iff, h.cacheSize_eq, h.cfg_eq]
  split
  · exact .ok _ h
  split
  · exact .error _
  split
  · exact (h.insertKey b).acceptPacket_same b sidx
  · exact .ok _ (h.insertKey b)

/-! ### Commands and steps -/

theorem effectOf_same (h : s.SameToHost t) (i : Instr) : SameEffect (effectOf i s) (effectOf i t) := by
  cases i with
  | advance =>
    simp only [effectOf, h.hop_eq]
    exact h.hopTo_same _
  | resync =>
    simp only [effectOf, h.draws_eq]
    exact h.hopTo_same _
  | read ch =>
    cases hk : channelOperand ch with
    | none => simpa only [effectOf, hk] using .error _
    | some k => simpa only [effectOf, hk, h.readEntry_eq k] using .ok _ h
  | update ch delta =>
    cases hk : channelOperand ch with
    | none => simpa only [effectOf, hk] using .error _
    | some k =>
      rcases h.trackUpdate_same k (deltaOperand delta) with ⟨c, hs, ht⟩ | ⟨u, v, hs, ht, huv⟩
      · simpa only [effectOf, hk, hs, ht] using .error c
      · simpa only [effectOf, hk, hs, ht] using .ok _ huv
  | batch => exact .ok _ h.clearCache
  | packet pkt sidx =>
    simp only [effectOf, h.cfg_eq]
    exact h.decodePacket_same _ sidx
  | dwell =>
    simp only [effectOf, h.cfg_eq]
    exact .ok _ h
  | status =>
    simp only [effectOf, h.statusResponse_eq]
    exact .ok _ h

theorem runCommand (h : s.SameToHost t) {e f : Effect} (hef : SameEffect e f) :
    (s.runCommand e).SameToHost (t.runCommand f) := by
  by_cases hf : s.fault = .noFault
  · rw [runCommand_of_running hf, runCommand_of_running (h.fault_eq ▸ hf)]
    cases hef with
    | error c => exact h.raiseFault c
    | ok r huv => exact huv.respond r
  · rw [runCommand_of_faulted hf, runCommand_of_faulted (h.fault_eq ▸ hf)]
    exact h.answerFaulted

theorem exec_same (h : s.SameToHost t) (i : Instr) :
    ∃ s' t', exec i s = .next s' ∧ exec i t = .next t' ∧ s'.SameToHost t' := by
  by_cases hi : i = .status
  · subst hi
    refine ⟨_, _, exec_status s, exec_status t, ?_⟩
    rw [h.statusResponse_eq]
    exact h.respond _
  · exact ⟨_, _, exec_eq_runCommand hi s, exec_eq_runCommand hi t, h.runCommand (h.effectOf_same i)⟩

end State.SameToHost

theorem step_of_idle {s : State} (hin : s.input = []) : step s = .next s := by
  simp [step, hin]

theorem step_of_reset {s : State} {rest : List Event} (hin : s.input = .reset :: rest) :
    step s = .next { s with input := rest }.resetBlock := by
  simp [step, hin]

/-- Settles O56, by the event both states take. -/
theorem hiddenStateDoesNotShow : Obligations.HiddenStateDoesNotShow := by
  intro s t h
  cases hs : s.input with
  | nil => exact ⟨s, t, step_of_idle hs, step_of_idle (h.input_eq ▸ hs), h⟩
  | cons event rest =>
    have ht : t.input = event :: rest := h.input_eq ▸ hs
    cases event with
    | reset => exact ⟨_, _, step_of_reset hs, step_of_reset ht, (h.takeEvent rest).resetBlock⟩
    | command record env draws =>
      have hp := h.present rest env draws
      cases hdec : decode s.cfg.pktLen record with
      | command i =>
        rw [step_of_command hs hdec, step_of_command ht (h.cfg_eq ▸ hdec)]
        exact hp.exec_same i
      | illegal why =>
        exact ⟨_, _, step_of_illegal hs hdec, step_of_illegal ht (h.cfg_eq ▸ hdec), hp.runCommand (.error _)⟩

end Sys2Proof.Machine
end

section
/-! PROOFS. A configuration is built exactly where it is well formed (R28, R254). -/

namespace Sys2Proof

/-- Nine channels without a repeat are all nine: HOP_PATTERN is a permutation. -/
theorem nodup_iff_hits_every_channel (p : Vector Channel 9) :
    p.toList.Nodup ↔ ∀ ch : Channel, ∃ i : HopIndex, p[i] = ch := by
  have hlist : p.toList = List.ofFn (fun i : HopIndex => p[i]) := by
    rw [← Vector.toList_ofFn]
    exact congrArg Vector.toList Vector.ofFn_getElem.symm
  rw [hlist, List.nodup_ofFn, Finite.injective_iff_surjective]
  rfl

theorem Config.wf_iff (c : Config) :
    c.wf = true ↔ (∀ ch : Channel, ∃ i : HopIndex, c.hopPattern[i] = ch) ∧ 5 ≤ c.pktLen ∧ 1 ≤ c.symbolLen ∧
      1 ≤ c.sampleRate ∧ c.cfgId ≤ 68719 ∧ 1 ≤ c.dedupDepth := by
  simp only [Config.wf, Bool.and_eq_true, decide_eq_true_eq, nodup_iff_hits_every_channel, and_assoc]

namespace Machine

/-- Settles O13. -/
theorem illFormedConfigurationIsRefused : Obligations.IllFormedConfigurationIsRefused := by
  intro c
  rw [← c.wf_iff]
  exact ⟨fun h => if_pos h, fun h => if_neg h⟩

end Machine

end Sys2Proof
end

section
/-! PROOFS. Which commands set a valid bit, and that none clears one (R23). -/

namespace Sys2Proof.Machine

namespace Completes

variable {s u : State} {i : Instr} {r : Response} {k : Channel}

theorem keeps_validBit (h : Completes s i u r) (hs : s.lutValid.getLsbD k.val = true) :
    u.lutValid.getLsbD k.val = true := by
  have hset : ∀ j : Channel, lutValidBit (setLutValid s.lutValid j) k = true := fun j => by
    rw [lutValidBit_setLutValid, show lutValidBit s.lutValid k = true from hs, Bool.true_or]
  cases h with
  | update j => exact hset j
  | accepted => exact hset s.currentChannel
  | hop | unchanged | batch | duplicate | failed => exact hs

/-- A valid bit is set by an UPDATE of its channel or a PACKET on it that answers a message. -/
theorem setter_of_validBit (h : Completes s i u r) (hne : u.lutValid.getLsbD k.val ≠ s.lutValid.getLsbD k.val) :
    (∃ d, i = .update (BitVec.ofNat 4 k.val) d) ∨
    (∃ pkt sidx m, i = .packet pkt sidx ∧ k = s.currentChannel ∧ r = messageResponse m) := by
  rcases h.writer_of_entry fun hk => hne hk.2 with hupdate | ⟨hk, pkt, sidx, rfl⟩
  · exact .inl hupdate
  · cases h with
    | accepted _ _ b v m => exact .inr ⟨pkt, sidx, m, rfl, hk, rfl⟩
    | hop | unchanged | duplicate | failed => exact absurd rfl hne

end Completes

/-- Settles O32: a fault writes no valid bit, and every other end of a command is one of `Completes`. -/
theorem validBitsAreSetByUpdatesAlone : Obligations.ValidBitsAreSetByUpdatesAlone := by
  refine ⟨fun i s t k h => ?_, fun _ => rfl⟩
  rcases exec_writes h with ⟨-, c, -, rfl⟩ | ⟨u, r, rfl, hc⟩
  · exact ⟨id, fun hs ht => absurd (hs.symm.trans ht) Bool.false_ne_true⟩
  · refine ⟨hc.keeps_validBit, fun hs ht => ?_⟩
    have hne : u.lutValid.getLsbD k.val ≠ s.lutValid.getLsbD k.val := fun heq =>
      Bool.false_ne_true (hs.symm.trans (heq.symm.trans ht))
    rcases hc.setter_of_validBit hne with hupdate | ⟨pkt, sidx, m, hi, hk, rfl⟩
    · exact .inl hupdate
    · exact .inr ⟨pkt, sidx, _, hi, hk, rfl, rfl, messageResponse_accept m⟩

end Sys2Proof.Machine
end

section
/-! PROOFS. What a faulted block does until a reset (R27, R225, R252). -/

namespace Sys2Proof.Machine

/-- A command of a faulted block writes the response alone. -/
theorem exec_of_faulted {i : Instr} {s t : State} (hf : s.fault ≠ .noFault) (h : exec i s = .next t) :
    ∃ r, t = s.respond r := by
  rcases exec_cases h with ⟨-, rfl⟩ | ⟨-, -, rfl⟩ | ⟨-, hok, -⟩ | ⟨-, hok, -⟩
  · exact ⟨_, rfl⟩
  · exact ⟨_, rfl⟩
  · exact absurd hok hf
  · exact absurd hok hf

/-- A step of a faulted block is idle, a reset, or takes a command and writes the response alone. -/
theorem step_of_faulted {s t : State} (hf : s.fault ≠ .noFault) (h : step s = .next t) :
    t = s ∨ (∃ rest, s.input = .reset :: rest) ∨
    ∃ rest env draws r, t = (s.present rest env draws).respond r := by
  rcases step_cases h with ⟨-, rfl⟩ | ⟨rest, hin, -⟩ | ⟨_, env, draws, rest, _, -, -, rfl⟩ |
    ⟨_, env, draws, rest, i, -, -, hexec⟩
  · exact .inl rfl
  · exact .inr (.inl ⟨rest, hin⟩)
  · have hrefused := runCommand_of_faulted (s := s.present rest env draws) hf (.error .illegalCmd)
    exact .inr (.inr ⟨rest, env, draws, faultedResponse s.fault, hrefused⟩)
  · exact .inr (.inr ⟨rest, env, draws, exec_of_faulted hf hexec⟩)

/-- Settles O52. -/
theorem onlyResetClearsAFault : Obligations.OnlyResetClearsAFault := by
  intro s t hf h hreset
  rcases step_of_faulted hf h with rfl | ⟨rest, hin⟩ | ⟨rest, env, draws, r, rfl⟩
  · exact ⟨rfl, rfl, rfl, rfl, rfl, rfl, rfl⟩
  · exact absurd hin (hreset rest)
  · exact ⟨rfl, rfl, rfl, rfl, rfl, rfl, rfl⟩

end Sys2Proof.Machine
end

section
/-! PROOFS. The decoder and the encoder (R70 to R77): a word decodes to a command exactly where it is the command's own
word, and a record's operands are then the command's. -/

namespace Sys2Proof

/-! ### The fields of a word, as numbers and under masks -/

theorem opcField_toNat (cw : Word32) : (opcField cw).toNat = cw.toNat % 16 := by
  simp [opcField, BitVec.extractLsb'_toNat]

theorem chField_toNat (cw : Word32) : (chField cw).toNat = cw.toNat / 16 % 16 := by
  simp [chField, BitVec.extractLsb'_toNat, Nat.shiftRight_eq_div_pow]

theorem rsvField_toNat (cw : Word32) : (rsvField cw).toNat = cw.toNat / 256 := by
  have := cw.isLt
  simp only [rsvField, BitVec.extractLsb'_toNat, Nat.shiftRight_eq_div_pow]
  omega

theorem opcField_eq_iff_masked (cw : Word32) (o : BitVec 4) : opcField cw = o ↔ cw &&& 0xF#32 = o.setWidth 32 := by
  have hmask : (cw &&& 0xF#32).toNat = cw.toNat % 16 := Nat.and_two_pow_sub_one_eq_mod cw.toNat 4
  have ho := o.isLt
  rw [← BitVec.toNat_inj, ← BitVec.toNat_inj, opcField_toNat, hmask, BitVec.toNat_setWidth]
  omega

/-! The mask of READ and UPDATE leaves the channel open, and no other bit (R77). -/

theorem opcField_masked (cw : Word32) : opcField (cw &&& 0xFFFFFF0F#32) = opcField cw :=
  BitVec.extractLsb'_and.trans BitVec.and_allOnes

theorem rsvField_masked (cw : Word32) : rsvField (cw &&& 0xFFFFFF0F#32) = rsvField cw :=
  BitVec.extractLsb'_and.trans BitVec.and_allOnes

theorem exists_channel_iff_masked (cw : Word32) (o : BitVec 4) :
    (∃ ch : BitVec 4, cw = (0#24) ++ ch ++ o) ↔ cw &&& 0xFFFFFF0F#32 = (0#24) ++ (0#4) ++ o := by
  constructor
  · rintro ⟨ch, rfl⟩
    revert ch o
    decide
  · intro h
    have hcw := word_eq_fields cw
    rw [← opcField_masked, ← rsvField_masked, h, opcField_append, rsvField_append] at hcw
    exact ⟨chField cw, hcw⟩

theorem eq_encodeWord_iff (cw : Word32) (i : Instr) :
    cw = encodeWord i ↔
      rsvField cw = 0 ∧ chField cw = channelBits i ∧ (opcField cw).toNat = (opcode i).toNat := by
  constructor
  · rintro rfl
    simp
  · rintro ⟨hr, hc, ho⟩
    rw [word_eq_fields cw, hr, hc, BitVec.eq_of_toNat_eq ho]
    rfl

/-! ### What the decoder answers -/

/-- The operands of a command are those of a record; a command without an operand record has none (R71). -/
def Instr.OperandsFrom (pktLen : Nat) (r : CommandRecord) : Instr → Prop
  | .update _ delta => delta = r.delta
  | .packet pkt sidx => pkt = packetBytes pktLen r.pkt ∧ sidx = r.sidx
  | .advance => True
  | .resync => True
  | .read _ => True
  | .batch => True
  | .dwell => True
  | .status => True

/-- A command without a channel is read from the word with its opcode and no other bit set (R73). -/
theorem word_and_operands_of_withoutChannel {pktLen : Nat} {r : CommandRecord} {i j : Instr}
    (h : withoutChannel r.cw i = .command j) (hi : channelBits i = 0) (hr : rsvField r.cw = 0)
    (ho : (opcField r.cw).toNat = (opcode i).toNat) (hops : i.OperandsFrom pktLen r) :
    r.cw = encodeWord j ∧ j.OperandsFrom pktLen r := by
  unfold withoutChannel at h
  split at h
  case isTrue hc =>
    cases h
    exact ⟨(eq_encodeWord_iff _ _).2 ⟨hr, hc.trans hi.symm, ho⟩, hops⟩
  case isFalse => cases h

/-- R77: a record decodes to a command exactly where it has the command's word and its operands. -/
theorem decode_eq_command_iff (pktLen : Nat) (r : CommandRecord) (i : Instr) :
    decode pktLen r = .command i ↔ r.cw = encodeWord i ∧ i.OperandsFrom pktLen r := by
  constructor
  · intro h
    unfold decode at h
    split at h
    case isFalse => cases h
    case isTrue hr =>
      split at h <;> rename_i ho
      · exact word_and_operands_of_withoutChannel h rfl hr ho trivial
      · exact word_and_operands_of_withoutChannel h rfl hr ho trivial
      · cases h; exact ⟨(eq_encodeWord_iff _ _).2 ⟨hr, rfl, ho⟩, trivial⟩
      · cases h; exact ⟨(eq_encodeWord_iff _ _).2 ⟨hr, rfl, ho⟩, rfl⟩
      · exact word_and_operands_of_withoutChannel h rfl hr ho trivial
      · exact word_and_operands_of_withoutChannel h rfl hr ho ⟨rfl, rfl⟩
      · exact word_and_operands_of_withoutChannel h rfl hr ho trivial
      · exact word_and_operands_of_withoutChannel h rfl hr ho trivial
      · cases h
  · rintro ⟨hcw, hops⟩
    obtain ⟨hr, hc, ho⟩ := (eq_encodeWord_iff _ _).1 hcw
    cases i with
    | update ch delta =>
      obtain rfl := hops
      simp [decode, hr, hc, ho, opcode, channelBits]
    | packet pkt sidx =>
      obtain ⟨rfl, rfl⟩ := hops
      simp [decode, hr, ho, opcode, withoutChannel, hc, channelBits]
    | _ => simp [decode, hr, ho, opcode, withoutChannel, hc, channelBits]

/-- The decoder answers no packet of another length than the block's (R71). -/
theorem recordFits_of_decode {pktLen : Nat} {r : CommandRecord} {i : Instr} (h : decode pktLen r = .command i) :
    i.recordFits pktLen = true := by
  obtain ⟨-, hops⟩ := (decode_eq_command_iff _ _ _).1 h
  cases i with
  | packet pkt sidx =>
    obtain ⟨rfl, -⟩ := hops
    simp [Instr.recordFits]
  | _ => rfl

/-- Settles O1: each command's case is one of the laws of `Sys2Proof.Laws.DecodeEncode`. -/
theorem decodeUndoesEncode : Obligations.DecodeUndoesEncode := by
  intro n i h
  cases i with
  | advance => exact Laws.DecodeEncode.advance n h
  | resync => exact Laws.DecodeEncode.resync n h
  | read ch => exact Laws.DecodeEncode.read ch n h
  | update ch delta => exact Laws.DecodeEncode.update ch delta n h
  | batch => exact Laws.DecodeEncode.batch n h
  | packet pkt sidx => exact Laws.DecodeEncode.packet pkt sidx n h
  | dwell => exact Laws.DecodeEncode.dwell n h
  | status => exact Laws.DecodeEncode.status n h

/-- The word of READ and UPDATE with the channel in bits 7..4. -/
theorem word_eq_or_channel : ∀ ch o : BitVec 4,
    (0#24) ++ ch ++ o = ((0#24) ++ (0#4) ++ o) ||| (ch.zeroExtend 32 <<< 4) := by decide

theorem and_fullMask (cw : Word32) : cw &&& 0xFFFFFFFF#32 = cw := BitVec.and_allOnes

/-- A command without an operand record or a channel has one word. -/
theorem decode_eq_command_iff_word {pktLen : Nat} {r : CommandRecord} {i : Instr} (hops : i.OperandsFrom pktLen r) :
    decode pktLen r = .command i ↔ r.cw &&& 0xFFFFFFFF#32 = encodeWord i := by
  rw [decode_eq_command_iff, and_fullMask]
  exact and_iff_left hops

theorem decode_eq_read_iff (pktLen : Nat) (r : CommandRecord) (ch : BitVec 4) :
    decode pktLen r = .command (.read ch) ↔ r.cw = (0#24) ++ ch ++ 0x3#4 :=
  (decode_eq_command_iff _ _ _).trans (and_iff_left trivial)

theorem decode_eq_update_iff (pktLen : Nat) (r : CommandRecord) (ch : BitVec 4) (delta : Word32) :
    decode pktLen r = .command (.update ch delta) ↔ r.cw = (0#24) ++ ch ++ 0x4#4 ∧ delta = r.delta :=
  decode_eq_command_iff _ _ _

theorem decode_eq_packet_iff (pktLen : Nat) (r : CommandRecord) (pkt : List Byte) (sidx : Word32) :
    decode pktLen r = .command (.packet pkt sidx) ↔
      r.cw &&& 0xFFFFFFFF#32 = 0x00000006#32 ∧ pkt = packetBytes pktLen r.pkt ∧ sidx = r.sidx := by
  have hword : encodeWord (.packet pkt sidx) = 0x00000006#32 := by simp [encodeWord, channelBits, opcode]
  rw [decode_eq_command_iff, and_fullMask, hword]
  rfl

/-- Settles O2: a command's words are its own (`decode_eq_command_iff`), and the mask leaves the channel open. -/
theorem eachCommandHasOneBitPattern : Obligations.EachCommandHasOneBitPattern := by
  intro n r
  refine ⟨decode_eq_command_iff_word trivial, decode_eq_command_iff_word trivial, ?_, ?_,
    decode_eq_command_iff_word trivial, ?_, decode_eq_command_iff_word trivial, decode_eq_command_iff_word trivial,
    fun ch h => ?_, fun ch delta h => ?_⟩
  · simp only [decode_eq_read_iff]
    exact exists_channel_iff_masked r.cw 3
  · simp only [decode_eq_update_iff, exists_and_left, exists_eq, and_true]
    exact exists_channel_iff_masked r.cw 4
  · simp only [decode_eq_packet_iff, exists_and_left, exists_eq, and_true]
  · exact ((decode_eq_read_iff n r ch).1 h).trans (word_eq_or_channel ch 3)
  · obtain ⟨hcw, hdelta⟩ := (decode_eq_update_iff n r ch delta).1 h
    exact ⟨hcw.trans (word_eq_or_channel ch 4), hdelta⟩

/-- Settles O3: the decoder evaluates each of the written words. -/
theorem wordsOfTheSpecDecode : Obligations.WordsOfTheSpecDecode := by
  unfold Obligations.WordsOfTheSpecDecode
  decide

end Sys2Proof
end

section
/-! PROOFS. The verdicts on a command word (R76, R225), and what the host presents (R71, R88). -/

namespace Sys2Proof.Machine

/-! ### The faulted block -/

theorem exec_of_faulted_of_ne_status {i : Instr} {s : State} (hf : s.fault ≠ .noFault) (hi : i ≠ .status) :
    exec i s = .next s.answerFaulted := by
  rw [exec_eq_runCommand hi, runCommand_of_faulted hf]

/-- Settles O51. -/
theorem faultedBlockRunsOnlyStatus : Obligations.FaultedBlockRunsOnlyStatus :=
  fun _ _ hf hi => exec_of_faulted_of_ne_status hf hi

/-- R76 verdict 1: on a faulted block every word but STATUS's is answered FAULTED, legal or not. -/
theorem step_of_faulted_of_word_ne_status {s : State} {r : CommandRecord} {env : Env} {draws : Draws}
    {rest : List Event} (hin : s.input = .command r env draws :: rest) (hf : s.fault ≠ .noFault)
    (hcw : r.cw ≠ encodeWord .status) : step s = .next (s.present rest env draws).answerFaulted := by
  cases hdec : decode s.cfg.pktLen r with
  | illegal why =>
    rw [step_of_illegal hin hdec]
    exact congrArg _ (runCommand_of_faulted (s := s.present rest env draws) hf _)
  | command i =>
    rw [step_of_command hin hdec]
    refine exec_of_faulted_of_ne_status hf ?_
    rintro rfl
    exact hcw ((decode_eq_command_iff _ _ _).1 hdec).1

/-! ### The fields of a word and the command it decodes to -/

theorem decode_eq_command_iff_fields (n : Nat) (r : CommandRecord) (i : Instr) :
    decode n r = .command i ↔
      (r.cw.toNat / 256 = 0 ∧ r.cw.toNat / 16 % 16 = (channelBits i).toNat ∧ r.cw.toNat % 16 = (opcode i).toNat) ∧
      i.OperandsFrom n r := by
  rw [decode_eq_command_iff, eq_encodeWord_iff, ← BitVec.toNat_inj, ← BitVec.toNat_inj, rsvField_toNat, chField_toNat,
    opcField_toNat]
  rfl

/-- The opcodes of R72, and which of them use CH (R73). -/
theorem opcode_bounds (i : Instr) :
    1 ≤ (opcode i).toNat ∧ (opcode i).toNat ≤ 8 ∧
      ((opcode i).toNat = 3 ∨ (opcode i).toNat = 4 ∨ (channelBits i).toNat = 0) := by
  cases i <;> simp [opcode, channelBits]

/-- The legal words of R72 to R74 are those that decode to a command. -/
theorem exists_command_iff (n : Nat) (r : CommandRecord) :
    (∃ i, decode n r = .command i) ↔
      r.cw.toNat / 256 = 0 ∧ 1 ≤ r.cw.toNat % 16 ∧ r.cw.toNat % 16 ≤ 8 ∧
        (r.cw.toNat % 16 = 3 ∨ r.cw.toNat % 16 = 4 ∨ r.cw.toNat / 16 % 16 = 0) := by
  simp only [decode_eq_command_iff_fields]
  constructor
  · rintro ⟨i, ⟨hr, hc, ho⟩, -⟩
    rw [hc, ho]
    exact ⟨hr, opcode_bounds i⟩
  · rintro ⟨hr, hlow, hhigh, hch⟩
    have hc := chField_toNat r.cw
    generalize r.cw.toNat % 16 = opc at *
    interval_cases opc
    · exact ⟨.advance, ⟨hr, by simpa [channelBits] using hch, rfl⟩, trivial⟩
    · exact ⟨.resync, ⟨hr, by simpa [channelBits] using hch, rfl⟩, trivial⟩
    · exact ⟨.read (chField r.cw), ⟨hr, hc.symm, rfl⟩, trivial⟩
    · exact ⟨.update (chField r.cw) r.delta, ⟨hr, hc.symm, rfl⟩, rfl⟩
    · exact ⟨.batch, ⟨hr, by simpa [channelBits] using hch, rfl⟩, trivial⟩
    · exact ⟨.packet (packetBytes n r.pkt) r.sidx, ⟨hr, by simpa [channelBits] using hch, rfl⟩, rfl, rfl⟩
    · exact ⟨.dwell, ⟨hr, by simpa [channelBits] using hch, rfl⟩, trivial⟩
    · exact ⟨.status, ⟨hr, by simpa [channelBits] using hch, rfl⟩, trivial⟩

theorem exists_illegal_of_not_command {n : Nat} {r : CommandRecord} (h : ¬ ∃ i, decode n r = .command i) :
    ∃ why, decode n r = .illegal why := by
  cases hdec : decode n r with
  | command i => exact absurd ⟨i, hdec⟩ h
  | illegal why => exact ⟨why, rfl⟩

/-! ### The channel of a command -/

theorem channelLegal_eq (i : Instr) : i.channelLegal = decide ((channelBits i).toNat < 9) := by
  cases i <;> rfl

/-- R76 verdict 3: a channel of 9..15 raises BAD_CHANNEL. -/
theorem exec_of_channel_illegal {i : Instr} {s : State} (hrun : s.fault = .noFault) (hch : 9 ≤ (channelBits i).toNat) :
    exec i s = .next (s.raiseFault .badChannel) := by
  have heffect : i ≠ .status ∧ effectOf i s = .error .badChannel := by
    cases i with
    | read ch => simp [effectOf, channelOperand_of_ge (show 9 ≤ ch.toNat from hch)]
    | update ch delta => simp [effectOf, channelOperand_of_ge (show 9 ≤ ch.toNat from hch)]
    | _ => simp [channelBits] at hch
  rw [exec_eq_runCommand heffect.1, heffect.2, runCommand_of_running hrun]
  rfl

/-- Settles O4: verdicts 2 to 4 ask whether the word is a command's (`exists_command_iff`), and with which channel. -/
theorem verdictsOnACommandWordInOrder : Obligations.VerdictsOnACommandWordInOrder := by
  intro s r env draws rest hin opc ch rsv taken
  have hlegal := exists_command_iff s.cfg.pktLen r
  refine ⟨fun ⟨hf, hcw⟩ => step_of_faulted_of_word_ne_status hin hf hcw, fun ⟨hrun, hbad⟩ => ?_,
    fun ⟨hrun, hrsv, hopc, hch⟩ => ?_, fun ⟨hrsv, hfields, _⟩ => ?_⟩
  · obtain ⟨why, hdec⟩ := exists_illegal_of_not_command (mt hlegal.1 (by omega))
    rw [step_of_illegal hin hdec]
    exact congrArg _ (runCommand_of_running (s := taken) hrun _)
  · obtain ⟨i, hdec⟩ := hlegal.2 (by omega)
    obtain ⟨⟨-, hbits, -⟩, -⟩ := (decode_eq_command_iff_fields _ _ _).1 hdec
    rw [step_of_command hin hdec]
    exact exec_of_channel_illegal hrun (hbits ▸ hch)
  · obtain ⟨i, hdec⟩ := hlegal.2 (by omega)
    obtain ⟨⟨-, hbits, -⟩, -⟩ := (decode_eq_command_iff_fields _ _ _).1 hdec
    have hch : (channelBits i).toNat < 9 := by omega
    refine ⟨i, hdec, ?_, step_of_command hin hdec⟩
    rw [Instr.wellFormed, recordFits_of_decode hdec, channelLegal_eq, decide_eq_true hch]
    rfl

/-! ### What the host presents -/

theorem submit_command (s : State) (r : CommandRecord) (env : Env) (draws : Draws) :
    s.submit (.command r env draws) =
      if r.cw &&& 0xF#32 = 6#32 ∧ r.pkt.length ≠ s.cfg.pktLen then .refused .recordLength
      else .next { s with input := s.input ++ [.command r env draws] } := by
  have hopc : opcField r.cw = 6 ↔ r.cw &&& 0xF#32 = 6#32 := opcField_eq_iff_masked r.cw 6
  simp only [State.submit, hopc]

/-- Settles O5. -/
theorem packetRecordOfAnotherLengthIsNotPresented : Obligations.PacketRecordOfAnotherLengthIsNotPresented := by
  intro s r env draws
  rw [submit_command]
  exact ⟨fun hcw hlen => if_pos ⟨hcw, hlen⟩, fun h => if_neg fun ⟨hcw, hlen⟩ => hlen (h hcw), rfl⟩

/-! ### Scripts -/

theorem samplesOfRule_fill (x : F64) : ∀ idx n : Nat, samplesOfRule (.fill x) idx n = some (List.replicate n x)
  | _, 0 => rfl
  | idx, n + 1 => by simp [samplesOfRule, sampleOfRule, samplesOfRule_fill x (idx + 1) n, List.replicate_succ]

theorem assemble_trace_fill (n : Nat) (env : Env) (len : Nat) (x : F64) (rest : List ScriptLine) :
    assemble n env (.trace len (.fill x) :: rest) = assemble n { trace := List.replicate len x } rest := by
  simp [assemble, samplesOfRule_fill]

theorem assemble_command_eq_some {n : Nat} {env : Env} {i : Instr} {draws : Draws} {rest : List ScriptLine}
    {events : List Event} (h : assemble n env (.command i draws :: rest) = some events) :
    i.wellFormed n = true ∧
      ∃ later, events = .command (encode i) env draws :: later ∧ assemble n env rest = some later := by
  unfold assemble at h
  split at h
  case isFalse => cases h
  case isTrue hwf =>
    split at h
    · cases h
      exact ⟨hwf, _, rfl, ‹_›⟩
    · cases h

/-- Settles O6: a legal command's record fits, so that O1 reads it back. -/
theorem scriptCommandsAssembleToTheirWords : Obligations.ScriptCommandsAssembleToTheirWords := by
  intro n env i draws x len rest events h
  rw [assemble_trace_fill] at h
  obtain ⟨hwf, later, rfl, hlater⟩ := assemble_command_eq_some h
  obtain ⟨hfits, -⟩ := Bool.and_eq_true_iff.1 hwf
  exact ⟨encode i, later, rfl, decodeUndoesEncode n i hfits, encode_cw i, hlater⟩

end Sys2Proof.Machine
end

section
/-! PROOFS. The bit-order reversal unit (R100 to R103): REV8 mirrors a byte, and REVPKT does so byte by byte. -/

namespace Sys2Proof.Machine

/-! ### REV8 -/

/-- R100, the normative form of REV8: bit by bit, the three swaps of R101 take bit `7 - i` to bit `i`. -/
theorem rev8_getLsbD (b : Byte) (i : Fin 8) : (rev8 b).getLsbD i.val = b.getLsbD (7 - i.val) := by
  fin_cases i <;> simp [rev8]

/-- R102: a bit mirrored twice is back in its place. -/
theorem rev8_involutive : Function.Involutive rev8 := by
  intro b
  refine BitVec.eq_of_getLsbD_eq fun i hi => ?_
  have hback : 7 - (7 - i) = i := by omega
  rw [rev8_getLsbD _ ⟨i, hi⟩, rev8_getLsbD b ⟨7 - i, by omega⟩, hback]

/-- Settles O14: the mirror law of R100, and from it the involution. -/
theorem rev8MirrorsTheBitsOfAByte : Obligations.Rev8MirrorsTheBitsOfAByte :=
  fun b => ⟨rev8_getLsbD b, rev8_involutive b⟩

/-! ### REVPKT -/

/-- R71, R103: on a packet of PKT_LEN bytes REVPKT is REV8 on each byte. -/
theorem revPkt_of_length {n : Nat} {p : List Byte} (h : p.length = n) : revPkt n p = p.map rev8 := by
  rw [revPkt, packetBytes_of_length h]

/-- R103: REVPKT is an involution on the packets of PKT_LEN bytes, because REV8 is one on bytes. -/
theorem revPkt_revPkt {n : Nat} {p : List Byte} (h : p.length = n) : revPkt n (revPkt n p) = p := by
  rw [revPkt_of_length (revPkt_length n p), revPkt_of_length h]
  exact rev8_involutive.list_map p

/-- R164: two packets have one key exactly where they are one packet. -/
theorem revPkt_eq_revPkt_iff {n : Nat} {p q : List Byte} (hp : p.length = n) (hq : q.length = n) :
    revPkt n p = revPkt n q ↔ p = q := by
  rw [revPkt_of_length hp, revPkt_of_length hq]
  exact rev8_involutive.injective.list_map.eq_iff

/-- Settles O15: each part is a law of REVPKT above. -/
theorem revPktIsABijectionByteByByte : Obligations.RevPktIsABijectionByteByByte := by
  intro n p q hp hq
  have hbyte (i : Nat) (_ : i < n) : (revPkt n p)[i]? = p[i]?.map rev8 := by
    rw [revPkt_of_length hp, List.getElem?_map]
  exact ⟨revPkt_length n p, hbyte, revPkt_revPkt hp, revPkt_eq_revPkt_iff hp hq⟩

end Sys2Proof.Machine
end

section
/-! PROOFS. DESCRIBE and the two hop commands (R111 to R115, R119). -/

namespace Sys2Proof.Machine

/-- The error a descriptor of channel `ch` carries: the entry where there is one, else CUR_ERR (R111). -/
def State.errorOn (s : State) (ch : Channel) : Word32 :=
  if s.lutValid.getLsbD ch.val = true then s.lutVal[ch] else s.curErr

theorem errorOn_of_valid {s : State} {ch : Channel} (h : lutValidBit s.lutValid ch = true) :
    s.errorOn ch = s.lutVal[ch] :=
  if_pos h

theorem errorOn_of_invalid {s : State} {ch : Channel} (h : lutValidBit s.lutValid ch = false) :
    s.errorOn ch = s.curErr :=
  if_neg (Bool.eq_false_iff.mp h)

/-- DESCRIBE writes to CUR_ERR the error of the channel in use, which may be CUR_ERR itself. -/
theorem describe_eq (s : State) :
    describe s = (s.setCurErr (s.errorOn s.currentChannel),
      { channel := s.currentChannel
        freq := s.cfg.channelTable[s.currentChannel]
        err := s.errorOn s.currentChannel }) := by
  rcases describe_cases s with ⟨hv, h⟩ | ⟨hv, h⟩
  · rw [h, errorOn_of_valid hv]
  · rw [h, errorOn_of_invalid hv]
    rfl

/-- CH in W0[3:0] with every other bit 0 is the channel's number (R79). -/
theorem zero_append_channel : ∀ ch : Channel, (0#28) ++ BitVec.ofNat 4 ch.val = BitVec.ofNat 32 ch.val := by
  decide

/-- The response of a hop to index `j` (R79, R111). -/
def State.hopAnswer (s : State) (j : HopIndex) : Response where
  rs := .ok
  w0 := BitVec.ofNat 32 (s.cfg.hopPattern[j]).val
  w1 := s.cfg.channelTable[s.cfg.hopPattern[j]]
  w2 := s.errorOn s.cfg.hopPattern[j]
  pay := []

theorem hopTo_eq_hopAnswer (s : State) (j : HopIndex) :
    hopTo s j = .ok ((s.setHopIdx j).setCurErr (s.errorOn s.cfg.hopPattern[j]), s.hopAnswer j) := by
  have hword := zero_append_channel s.cfg.hopPattern[j]
  rw [hopTo, describe_eq, State.hopAnswer, ← hword]
  rfl

/-- A running block's ADVANCE or RESYNC: the hop that is its effect, and the answer to it. -/
theorem exec_of_hopTo {i : Instr} {s : State} {j : HopIndex} (hi : i ≠ .status) (heffect : effectOf i s = hopTo s j)
    (hrun : s.running) :
    exec i s = .next (((s.setHopIdx j).setCurErr (s.errorOn s.cfg.hopPattern[j])).respond (s.hopAnswer j)) := by
  rw [exec_eq_runCommand hi, heffect, runCommand_of_running hrun, hopTo_eq_hopAnswer, finish_ok]

theorem exec_advance_of_running {s : State} (hrun : s.running) :
    exec .advance s = .next (((s.setHopIdx (nextHop s.hopIdx)).setCurErr
      (s.errorOn s.cfg.hopPattern[nextHop s.hopIdx])).respond (s.hopAnswer (nextHop s.hopIdx))) :=
  exec_of_hopTo (by decide) rfl hrun

theorem exec_resync_of_running {s : State} (hrun : s.running) :
    exec .resync s = .next (((s.setHopIdx s.draws.hop).setCurErr
      (s.errorOn s.cfg.hopPattern[s.draws.hop])).respond (s.hopAnswer s.draws.hop)) :=
  exec_of_hopTo (by decide) rfl hrun

/-- Settles O16. -/
theorem describeLoadsTheErrorOfTheChannel : Obligations.DescribeLoadsTheErrorOfTheChannel :=
  fun s => describe_eq s

/-- Settles O17. -/
theorem advanceMovesToTheNextHop : Obligations.AdvanceMovesToTheNextHop := by
  refine ⟨by decide, fun s i ch e hi hch he => ?_⟩
  obtain rfl : i = nextHop s.hopIdx := Fin.ext hi
  subst hch he
  exact ⟨exec_advance_of_running, fun hf => exec_of_faulted_of_ne_status hf (by decide)⟩

/-- Settles O18. -/
theorem resyncMovesToTheDrawnHop : Obligations.ResyncMovesToTheDrawnHop := by
  refine ⟨by decide, fun s ch e hch he => ?_⟩
  subst hch he
  exact ⟨exec_resync_of_running, fun hf => exec_of_faulted_of_ne_status hf (by decide)⟩

/-- Settles O19. -/
theorem resyncAdmitsEveryIndex : Obligations.ResyncAdmitsEveryIndex :=
  fun s r v hrun => ⟨_, exec_resync_of_running (s := { s with draws := { hop := r, readValue := v } }) hrun, rfl, hrun⟩

/-- Settles O23. -/
theorem descriptorCarriesTheTableFrequency : Obligations.DescriptorCarriesTheTableFrequency := by
  refine ⟨by decide, fun s => ?_⟩
  simp only [describe_eq]

end Sys2Proof.Machine
end

section
/-! PROOFS. The dwell time (R116, R117). -/

namespace Sys2Proof.Machine

theorem exec_dwell_of_running {s : State} (hrun : s.running) :
    exec .dwell s = .next (s.respond (dwellResponse (dwellUs s.cfg))) := by
  rw [exec_eq_runCommand (by decide), runCommand_of_running hrun]
  rfl

/-- R6's bound on CFG_ID keeps DWELL_US a u32, so that W0 holds it exactly. -/
theorem dwellResponse_w0_toNat {c : Config} (h : c.cfgId ≤ 68719) :
    (dwellResponse (dwellUs c)).w0.toNat = 3000 + c.cfgId * 62500 := by
  have hvalue : dwellUs c = 3000 + c.cfgId * 62500 := rfl
  have hfits : dwellUs c < 2 ^ 32 := by omega
  rw [← hvalue]
  exact (BitVec.toNat_ofNat _ _).trans (Nat.mod_eq_of_lt hfits)

/-- Settles O21. -/
theorem dwellReportsTheDwellTime : Obligations.DwellReportsTheDwellTime := by
  refine ⟨by decide, fun s hid => ⟨fun hrun => ?_, fun hf => exec_of_faulted_of_ne_status hf (by decide)⟩⟩
  have hw := dwellResponse_w0_toNat hid
  exact ⟨_, hw, by omega, exec_dwell_of_running hrun⟩

/-- Settles O22. -/
theorem dwellDependsOnTheIdentifierAlone : Obligations.DwellDependsOnTheIdentifierAlone := by
  intro s t d hs ht hid hbound
  refine ⟨_, _, _, _, exec_dwell_of_running hs, exec_dwell_of_running ht, rfl, rfl, ?_⟩
  rw [dwellResponse_w0_toNat hbound, dwellResponse_w0_toNat (by omega), hid]
  ring

end Sys2Proof.Machine
end

section
/-! PROOFS. ADVANCE commands in a row walk the hop pattern (R113). -/

namespace Sys2Proof.Machine

/-! ### The walk of HOP_IDX -/

theorem nextHop_iterate_val (n : Nat) (i : HopIndex) : (nextHop^[n] i).val = (i.val + n) % 9 := by
  induction n generalizing i with
  | zero => exact (Nat.mod_eq_of_lt i.isLt).symm
  | succ n ih =>
    have hnext : (nextHop i).val = (i.val + 1) % 9 := rfl
    rw [Function.iterate_succ_apply, ih, hnext]
    omega

/-- Nine hops come back (R113). -/
theorem nextHop_iterate_nine (i : HopIndex) : nextHop^[9] i = i := by
  refine Fin.ext ?_
  rw [nextHop_iterate_val, Nat.add_mod_right, Nat.mod_eq_of_lt i.isLt]

/-- The channel in use after `n` ADVANCE commands. -/
def State.channelAfter (s : State) (n : Nat) : Channel := s.cfg.hopPattern[nextHop^[n] s.hopIdx]

/-- R28, R113: HOP_PATTERN is a permutation and nine hops in a row pass nine indices, so each channel is met once. -/
theorem channelAfter_bijective {s : State} (hwf : s.cfg.wf = true) :
    Function.Bijective fun n : Fin 9 => s.channelAfter (n.val + 1) := by
  obtain ⟨hpattern, -⟩ := s.cfg.wf_iff.mp hwf
  have hpattern : Function.Injective fun i : HopIndex => s.cfg.hopPattern[i] :=
    Finite.injective_iff_surjective.mpr hpattern
  refine Finite.injective_iff_bijective.mp fun n m hnm => Fin.ext ?_
  have hval := congrArg Fin.val (hpattern hnm)
  rw [nextHop_iterate_val, nextHop_iterate_val] at hval
  omega

/-! ### The run of ADVANCE commands -/

/-- The answer to a hop names channel `ch` (R79). -/
def NamesChannel (ch : Channel) (a : Response) : Prop := a.rs = .ok ∧ a.w0 = BitVec.ofNat 32 ch.val

theorem ofNat_channel_inj {j k : Channel} (h : BitVec.ofNat 32 j.val = BitVec.ofNat 32 k.val) : j = k := by
  have hnat := congrArg BitVec.toNat h
  rw [BitVec.toNat_ofNat, BitVec.toNat_ofNat] at hnat
  exact Fin.ext (by omega)

/-- One ADVANCE of a running block. -/
theorem step_of_advance {s : State} {env : Env} {draws : Draws} {rest : List Event} (hrun : s.running)
    (hin : s.input = .command (encode .advance) env draws :: rest) :
    ∃ t a, step s = .next t ∧ t.hopIdx = nextHop s.hopIdx ∧ t.running ∧ t.input = rest ∧ t.cfg = s.cfg ∧
      t.resp = some a ∧ NamesChannel (s.channelAfter 1) a := by
  have hexec := exec_advance_of_running (s := s.present rest env draws) hrun
  have hstep := (step_of_command hin (decodeUndoesEncode _ .advance rfl)).trans hexec
  exact ⟨_, _, hstep, rfl, hrun, rfl, rfl, rfl, rfl, rfl⟩

theorem runCollect_succ {n : Nat} {s t u : State} {rs : List (Option Response)} (hstep : step s = .next t)
    (hrest : runCollect n t = some (u, rs)) : runCollect (n + 1) s = some (u, t.resp :: rs) := by
  simp only [runCollect, hstep, hrest]

/-- R113: `n` ADVANCE commands in a row name the channels of the next `n` hops, in order. -/
theorem runCollect_advances (n : Nat) {s : State} {env : Env} {draws : Draws} {rest : List Event} (hrun : s.running)
    (hin : s.input = List.replicate n (.command (encode .advance) env draws) ++ rest) :
    ∃ t rs, runCollect n s = some (t, rs) ∧ t.hopIdx = nextHop^[n] s.hopIdx ∧ t.running ∧ t.input = rest ∧
      t.cfg = s.cfg ∧ rs.length = n ∧
      ∀ k < n, ∃ a, rs[k]? = some (some a) ∧ NamesChannel (s.channelAfter (k + 1)) a := by
  induction n generalizing s with
  | zero => exact ⟨s, [], rfl, rfl, hrun, hin, rfl, rfl, fun k hk => absurd hk (Nat.not_lt_zero k)⟩
  | succ n ih =>
    obtain ⟨t, a, hstep, hhop, ht, hinput, hcfg, hresp, ha⟩ := step_of_advance hrun hin
    obtain ⟨u, rs, hrest, huhop, hu, huinput, hucfg, hlen, hanswers⟩ := ih ht hinput
    have hchannel (k : Nat) : t.channelAfter k = s.channelAfter (k + 1) := by
      simp only [State.channelAfter, hcfg, hhop, Function.iterate_succ_apply]
    refine ⟨u, t.resp :: rs, runCollect_succ hstep hrest, ?_, hu, huinput, hucfg.trans hcfg,
      congrArg (· + 1) hlen, fun k hk => ?_⟩
    · rw [huhop, hhop, Function.iterate_succ_apply]
    · cases k with
      | zero => exact ⟨a, congrArg some hresp, ha⟩
      | succ k =>
        rw [← hchannel]
        exact hanswers k (Nat.lt_of_succ_lt_succ hk)

/-- Settles O20: the order is that of `runCollect_advances`, and each channel is met once by `channelAfter_bijective`. -/
theorem nineAdvancesVisitEveryChannelOnce : Obligations.NineAdvancesVisitEveryChannelOnce := by
  intro s env draws rest hrun hwf hin
  obtain ⟨t, rs, hcollect, hhop, ht, hinput, hcfg, hlen, hanswers⟩ := runCollect_advances 9 hrun hin
  refine ⟨t, rs, hcollect, hhop.trans (nextHop_iterate_nine _), ht, hinput, hcfg, hlen, fun n i hn hi => ?_,
    fun ch => ?_⟩
  · obtain rfl : i = nextHop^[n + 1] s.hopIdx := Fin.ext (hi.trans (nextHop_iterate_val (n + 1) _).symm)
    exact hanswers n hn
  · have hnames (n : Nat) (hn : n < 9) :
        (∃ a, rs[n]? = some (some a) ∧ a.w0 = BitVec.ofNat 32 ch.val) ↔ s.channelAfter (n + 1) = ch := by
      obtain ⟨a, ha, -, hw⟩ := hanswers n hn
      constructor
      · rintro ⟨b, hb, hwb⟩
        obtain rfl : a = b := Option.some.inj (Option.some.inj (ha.symm.trans hb))
        exact ofNat_channel_inj (hw.symm.trans hwb)
      · rintro rfl
        exact ⟨a, ha, hw⟩
    obtain ⟨k, hk, hunique⟩ := (channelAfter_bijective hwf).existsUnique ch
    exact ⟨k, ⟨k.isLt, (hnames k k.isLt).mpr hk⟩, fun m ⟨hm, h⟩ =>
      congrArg Fin.val (hunique ⟨m, hm⟩ ((hnames m hm).mp h))⟩

end Sys2Proof.Machine
end

section
/-! PROOFS. READ, TRACK_UPDATE and UPDATE (R131 to R134). -/

namespace Sys2Proof.Machine

/-! ### The channel operand -/

theorem channelOperand_of_val_eq {ch : BitVec 4} {k : Channel} (h : k.val = ch.toNat) : channelOperand ch = some k := by
  have hlt : ch.toNat < 9 := h ▸ k.isLt
  rw [channelOperand_of_lt hlt]
  exact congrArg some (Fin.ext h.symm)

/-- The operand that names a channel reads back as it. -/
theorem channel_ofNat_toNat (k : Channel) : k.val = (BitVec.ofNat 4 k.val).toNat := by
  rw [BitVec.toNat_ofNat]
  omega

/-! ### The end of a command of a running block -/

theorem exec_of_effectOf_ok {i : Instr} {s u : State} {r : Response} (hrun : s.running)
    (h : effectOf i s = .ok (u, r)) : exec i s = .next (u.respond r) := by
  by_cases hi : i = .status
  · subst hi
    cases h
    exact exec_status s
  · rw [exec_eq_runCommand hi, h, runCommand_of_running hrun, finish_ok]

theorem exec_of_effectOf_error {i : Instr} {s : State} {c : FaultCode} (hrun : s.running)
    (h : effectOf i s = .error c) : exec i s = .next (s.raiseFault c) := by
  have hi : i ≠ .status := by
    rintro rfl
    cases h
  rw [exec_eq_runCommand hi, h, runCommand_of_running hrun, finish_error]

/-! ### READ -/

theorem readEntry_of_valid {s : State} {k : Channel} (h : s.lutValid.getLsbD k.val = true) :
    readEntry s k = readResponse true s.lutVal[k] :=
  if_pos h

theorem readEntry_of_invalid {s : State} {k : Channel} (h : s.lutValid.getLsbD k.val = false) :
    readEntry s k = readResponse false s.draws.readValue :=
  if_neg (Bool.eq_false_iff.mp h)

theorem exec_read_of_running {s : State} {ch : BitVec 4} {k : Channel} (hk : k.val = ch.toNat) (hrun : s.running) :
    exec (.read ch) s = .next (s.respond (readEntry s k)) :=
  exec_of_effectOf_ok hrun (by simp only [effectOf, channelOperand_of_val_eq hk])

/-- Settles O25. -/
theorem readReportsTheEntry : Obligations.ReadReportsTheEntry := by
  intro s ch
  refine ⟨(encode_cw _).trans (word_eq_or_channel ch 3), fun k hk hrun hv => ?_, fun k hk hrun hv => ?_,
    fun hch hrun => exec_of_channel_illegal hrun hch, fun hf => exec_of_faulted_of_ne_status hf (by simp)⟩
  · rw [exec_read_of_running hk hrun, readEntry_of_valid hv]
    rfl
  · rw [exec_read_of_running hk hrun, readEntry_of_invalid hv]
    rfl

/-- Settles O26: the draw is the value of READ's third clause. -/
theorem readOfAnAbsentEntryAdmitsEveryValue : Obligations.ReadOfAnAbsentEntryAdmitsEveryValue := by
  intro s k v hrun hv
  obtain ⟨-, -, habsent, -⟩ := readReportsTheEntry { s with draws := { s.draws with readValue := v } }
    (BitVec.ofNat 4 k.val)
  exact ⟨_, _, habsent k (channel_ofNat_toNat k) hrun hv, rfl, rfl, BitVec.getLsbD_zero, rfl⟩

/-! ### TRACK_UPDATE -/

theorem fitsS32_toInt (v : Word32) : fitsS32 v.toInt = true :=
  (fitsS32_iff _).mpr ⟨v.le_toInt, Int.le_sub_one_of_lt BitVec.toInt_lt⟩

theorem fitsS32_eq_false_iff (v : Int) : fitsS32 v = false ↔ v < -2147483648 ∨ 2147483647 < v := by
  rw [← Bool.not_eq_true, fitsS32_iff]
  omega

/-- TRACK_UPDATE completes exactly where a word holds the sum, and writes that word to CUR_ERR and the entry (R133). -/
theorem trackUpdate_eq_ok_iff {k : Channel} {delta : Int} {s t : State} :
    trackUpdate k delta s = .ok t ↔
      ∃ v : Word32, v.toInt = s.curErr.toInt + delta ∧ t = (s.setCurErr v).writeLut k v := by
  rcases trackUpdate_cases k delta s with ⟨hfit, htrack⟩ | ⟨hfit, htrack⟩ <;> rw [htrack]
  · refine ⟨(nomatch ·), fun ⟨v, hv, _⟩ => ?_⟩
    rw [← hv, fitsS32_toInt] at hfit
    cases hfit
  · have hsum := toInt_ofInt_of_fits hfit
    constructor
    · intro h
      cases h
      exact ⟨_, hsum, rfl⟩
    · rintro ⟨v, hv, rfl⟩
      rw [← hv, BitVec.ofInt_toInt]

theorem trackUpdate_of_overflow {k : Channel} {delta : Int} {s : State}
    (h : s.curErr.toInt + delta < -2147483648 ∨ 2147483647 < s.curErr.toInt + delta) :
    trackUpdate k delta s = .error .errOverflow := by
  rw [← fitsS32_eq_false_iff] at h
  simp only [trackUpdate, h, Bool.false_eq_true, if_false]

/-- Settles O27. -/
theorem trackUpdateAddsAndStores : Obligations.TrackUpdateAddsAndStores := by
  refine fun k delta s => ⟨fun hlow hhigh => ?_, trackUpdate_of_overflow⟩
  have hsum := toInt_ofInt_of_fits ((fitsS32_iff _).mpr ⟨hlow, hhigh⟩)
  exact ⟨_, hsum, _, lutValidBit_setLutValid s.lutValid k, trackUpdate_eq_ok_iff.mpr ⟨_, hsum, rfl⟩⟩

/-! ### UPDATE -/

theorem effectOf_update {ch : BitVec 4} {k : Channel} (hk : k.val = ch.toNat) (delta : Word32) (s : State) :
    effectOf (.update ch delta) s = (trackUpdate k delta.toInt s).map (·, okResponse) := by
  simp only [effectOf, channelOperand_of_val_eq hk, deltaOperand]
  cases trackUpdate k delta.toInt s <;> rfl

/-- An UPDATE that completes writes the sum of CUR_ERR and DELTA to CUR_ERR and the entry of its channel. -/
theorem effectOf_update_eq_ok_iff {ch : BitVec 4} {k : Channel} (hk : k.val = ch.toNat) {delta : Word32}
    {s u : State} {r : Response} :
    effectOf (.update ch delta) s = .ok (u, r) ↔
      (∃ v : Word32, v.toInt = s.curErr.toInt + delta.toInt ∧ u = (s.setCurErr v).writeLut k v) ∧ r = okResponse := by
  rw [effectOf_update hk, ← trackUpdate_eq_ok_iff]
  cases trackUpdate k delta.toInt s <;> simp [Except.map, eq_comm]

/-- Settles O28. -/
theorem updateAddsAndStores : Obligations.UpdateAddsAndStores := by
  intro s ch delta
  refine ⟨(encode_cw _).trans (word_eq_or_channel ch 4), rfl, fun k v hk hrun hv => ?_, fun hch hrun hsum => ?_,
    fun hch hrun => exec_of_channel_illegal hrun hch, fun hf => exec_of_faulted_of_ne_status hf (by simp)⟩
  · have heffect := (effectOf_update_eq_ok_iff hk).mpr ⟨⟨v, hv, rfl⟩, rfl⟩
    exact ⟨_, lutValidBit_setLutValid s.lutValid k, exec_of_effectOf_ok hrun heffect⟩
  · have heffect := effectOf_update (k := ⟨ch.toNat, hch⟩) rfl delta s
    rw [trackUpdate_of_overflow hsum] at heffect
    exact exec_of_effectOf_error hrun heffect

end Sys2Proof.Machine
end

section
/-! PROOFS. A run on one channel adds up what its commands add (R135). -/

namespace Sys2Proof.Machine

/-! ### What a run on one channel leaves -/

/-- The entry of channel `k` exists and is CUR_ERR. -/
def State.HoldsError (s : State) (k : Channel) : Prop := s.lutVal[k] = s.curErr ∧ s.lutValid.getLsbD k.val = true

/-- `t` is what `s` becomes when `added` is added to the error, one summand after another, each time with a write of the
sum to the entry of channel `k`. -/
structure Compounds (k : Channel) (added : List Int) (s t : State) : Prop where
  cfg_eq : t.cfg = s.cfg
  hopIdx_eq : t.hopIdx = s.hopIdx
  curErr_eq : t.curErr.toInt = s.curErr.toInt + added.sum
  holds : added ≠ [] ∨ s.HoldsError k → t.HoldsError k
  others : ∀ j : Channel, j ≠ k → t.lutVal[j] = s.lutVal[j] ∧ t.lutValid.getLsbD j.val = s.lutValid.getLsbD j.val

namespace Compounds

variable {k : Channel} {added more : List Int} {s t u : State}

/-- A write of neither the hop index nor the error tables adds nothing. -/
theorem of_same (hcfg : t.cfg = s.cfg) (hhop : t.hopIdx = s.hopIdx) (herr : t.curErr = s.curErr)
    (hval : t.lutVal = s.lutVal) (hvalid : t.lutValid = s.lutValid) : Compounds k [] s t where
  cfg_eq := hcfg
  hopIdx_eq := hhop
  curErr_eq := by rw [herr, List.sum_nil, add_zero]
  holds := fun h => by
    rw [State.HoldsError, hval, hvalid, herr]
    exact h.resolve_left (not_not.mpr rfl)
  others := fun _ _ => by rw [hval, hvalid]; exact ⟨rfl, rfl⟩

theorem of_track {v : Word32} {delta : Int} (h : v.toInt = s.curErr.toInt + delta) :
    Compounds k [delta] s ((s.setCurErr v).writeLut k v) where
  cfg_eq := rfl
  hopIdx_eq := rfl
  curErr_eq := by rw [List.sum_singleton]; exact h
  holds := fun _ => by
    have hbit := lutValidBit_setLutValid s.lutValid k k
    rw [decide_eq_true rfl, Bool.or_true] at hbit
    exact ⟨Vector.getElem_set_self _, hbit⟩
  others := fun _ hj => ⟨writeLut_lutVal_of_ne hj.symm, writeLut_lutValid_of_ne hj.symm⟩

theorem trans (h : Compounds k added s t) (h' : Compounds k more t u) : Compounds k (added ++ more) s u where
  cfg_eq := h'.cfg_eq.trans h.cfg_eq
  hopIdx_eq := h'.hopIdx_eq.trans h.hopIdx_eq
  curErr_eq := by rw [h'.curErr_eq, h.curErr_eq, List.sum_append, add_assoc]
  holds := fun hne => h'.holds <| by
    by_cases hmore : more = []
    · exact .inr (h.holds (hne.imp_left fun hadd hnil => hadd (by rw [hnil, hmore, List.append_nil])))
    · exact .inl hmore
  others := fun j hj => ⟨(h'.others j hj).1.trans (h.others j hj).1, (h'.others j hj).2.trans (h.others j hj).2⟩

theorem respond (h : Compounds k added s t) (r : Response) : Compounds k added s (t.respond r) :=
  ⟨h.cfg_eq, h.hopIdx_eq, h.curErr_eq, h.holds, h.others⟩

theorem of_present {rest : List Event} {env : Env} {draws : Draws} (h : Compounds k added (s.present rest env draws) t) :
    Compounds k added s t :=
  ⟨h.cfg_eq, h.hopIdx_eq, h.curErr_eq, h.holds, h.others⟩

theorem currentChannel_eq (h : Compounds k added s t) : t.currentChannel = s.currentChannel := by
  simp only [State.currentChannel, h.cfg_eq, h.hopIdx_eq]

end Compounds

/-! ### One command -/

/-- A command that neither hops nor updates a channel other than `k`, and whose packet the block takes. -/
structure StaysOn (s : State) (k : Channel) (i : Instr) : Prop where
  not_advance : i ≠ .advance
  not_resync : i ≠ .resync
  update_channel : ∀ ch d, i = .update ch d → ch.toNat = k.val
  packet_channel : ∀ pkt sidx, i = .packet pkt sidx → pkt.length = s.cfg.pktLen ∧ k = s.currentChannel

theorem StaysOn.congr {s t : State} {k : Channel} {i : Instr} (h : StaysOn s k i) (hcfg : t.cfg = s.cfg)
    (hch : t.currentChannel = s.currentChannel) : StaysOn t k i :=
  ⟨h.not_advance, h.not_resync, h.update_channel, by rw [hcfg, hch]; exact h.packet_channel⟩

theorem StaysOn.recordFits {s : State} {k : Channel} {i : Instr} (h : StaysOn s k i) :
    i.recordFits s.cfg.pktLen = true := by
  cases i with
  | packet pkt sidx => exact decide_eq_true (h.packet_channel pkt sidx rfl).1
  | _ => rfl

/-- `x` is what a command answered by `a` adds to the error: an accepted PACKET its measurement, an UPDATE its delta, and
every other command nothing (R135). -/
structure Adds (c : Config) (env : Env) (i : Instr) (a : Response) (x : Option Int) : Prop where
  accepted : ∀ pkt sidx, i = .packet pkt sidx → a.w0.getLsbD 0 = true →
    ∃ e, measureError c env sidx.toNat = .ok e ∧ x = some e
  dropped : ∀ pkt sidx, i = .packet pkt sidx → a.w0.getLsbD 0 = false → x = none
  other : (∀ pkt sidx, i ≠ .packet pkt sidx) → x = updateDelta i

namespace Adds

variable {c : Config} {env : Env}

theorem of_not_packet {i : Instr} {a : Response} (h : ∀ pkt sidx, i ≠ .packet pkt sidx) :
    Adds c env i a (updateDelta i) where
  accepted := fun pkt sidx hi => absurd hi (h pkt sidx)
  dropped := fun pkt sidx hi => absurd hi (h pkt sidx)
  other := fun _ => rfl

theorem of_dropped (pkt : List Byte) (sidx : Word32) : Adds c env (.packet pkt sidx) droppedResponse none where
  accepted := fun _ _ _ ha => absurd (BitVec.getLsbD_zero.symm.trans ha) Bool.false_ne_true
  dropped := fun _ _ _ _ => rfl
  other := fun _ => rfl

theorem of_accepted {pkt : List Byte} {sidx : Word32} {m : Message} {e : Int}
    (he : measureError c env sidx.toNat = .ok e) : Adds c env (.packet pkt sidx) (messageResponse m) (some e) where
  accepted := fun _ _ hi _ => by cases hi; exact ⟨e, he, rfl⟩
  dropped := fun _ _ _ ha => absurd ((messageResponse_accept m).symm.trans ha) Bool.false_ne_true.symm
  other := fun h => absurd rfl (h pkt sidx)

end Adds

theorem compounds_of_decodePacket {s u : State} {r : Response} {pkt b : List Byte} {sidx : Word32}
    (h : decodePacket b sidx s = .ok (u, r)) :
    ∃ x, Compounds s.currentChannel x.toList s u ∧ Adds s.cfg s.env (.packet pkt sidx) r x := by
  have hinsert : Compounds s.currentChannel [] s (s.insertKey b) := .of_same rfl rfl rfl rfl rfl
  rcases decodePacket_cases b sidx s with ⟨-, hd⟩ | ⟨-, -, hd⟩ | ⟨-, -, -, hd⟩ | ⟨-, -, -, hd⟩ <;> rw [hd] at h
  · cases h; exact ⟨none, .of_same rfl rfl rfl rfl rfl, .of_dropped pkt sidx⟩
  · cases h
  · cases h; exact ⟨none, hinsert, .of_dropped pkt sidx⟩
  · rcases acceptPacket_cases b sidx (s.insertKey b) with ⟨c, -, ha⟩ | ⟨e, -, -, ha⟩ | ⟨e, he, hfit, ha⟩ <;> rw [ha] at h
    · cases h
    · cases h
    · cases h
      exact ⟨some e, hinsert.trans (.of_track (toInt_ofInt_of_fits hfit)), .of_accepted he⟩

/-- A command that stays on channel `k` and completes adds there what `Adds` says, and nothing anywhere else. -/
theorem compounds_of_effectOf {i : Instr} {s u : State} {r : Response} {k : Channel} (hi : StaysOn s k i)
    (h : effectOf i s = .ok (u, r)) : ∃ x, Compounds k x.toList s u ∧ Adds s.cfg s.env i r x := by
  cases i with
  | advance => exact absurd rfl hi.not_advance
  | resync => exact absurd rfl hi.not_resync
  | read ch =>
    obtain rfl : u = s := by
      cases completes_of_effectOf h with
      | hop hi => simp at hi
      | unchanged => rfl
    exact ⟨none, .of_same rfl rfl rfl rfl rfl, .of_not_packet (by simp)⟩
  | update ch delta =>
    obtain ⟨⟨v, hv, rfl⟩, -⟩ := (effectOf_update_eq_ok_iff (hi.update_channel ch delta rfl).symm).mp h
    exact ⟨some delta.toInt, .of_track hv, .of_not_packet (by simp)⟩
  | batch => cases h; exact ⟨none, .of_same rfl rfl rfl rfl rfl, .of_not_packet (by simp)⟩
  | packet pkt sidx =>
    obtain ⟨-, rfl⟩ := hi.packet_channel pkt sidx rfl
    exact compounds_of_decodePacket h
  | dwell => cases h; exact ⟨none, .of_same rfl rfl rfl rfl rfl, .of_not_packet (by simp)⟩
  | status => cases h; exact ⟨none, .of_same rfl rfl rfl rfl rfl, .of_not_packet (by simp)⟩

/-! ### A command leaves a running block running exactly where it completes -/

theorem running_of_effectOf_ok {i : Instr} {s u : State} {r : Response} (hrun : s.running)
    (h : effectOf i s = .ok (u, r)) : u.running := by
  obtain ⟨-, -, -, -, hfault⟩ := (completes_of_effectOf h).frame
  exact hfault.trans hrun

theorem measureError_ne_noFault (c : Config) (env : Env) (sidx : Nat) : measureError c env sidx ≠ .error .noFault := by
  unfold measureError
  simp only []
  split
  · simp
  · split <;> simp

theorem decodePacket_ne_noFault (b : List Byte) (sidx : Word32) (s : State) :
    decodePacket b sidx s ≠ .error .noFault := by
  rcases decodePacket_cases b sidx s with ⟨-, hd⟩ | ⟨-, -, hd⟩ | ⟨-, -, -, hd⟩ | ⟨-, -, -, hd⟩ <;> rw [hd]
  · simp
  · simp
  · simp
  · rcases acceptPacket_cases b sidx (s.insertKey b) with ⟨c, hm, ha⟩ | ⟨e, -, -, ha⟩ | ⟨e, -, -, ha⟩ <;> rw [ha]
    · rintro ⟨⟩
      exact measureError_ne_noFault _ _ _ hm
    · simp
    · simp

/-- A command that faults raises a code other than NONE (R221, R224). -/
theorem effectOf_ne_noFault (i : Instr) (s : State) : effectOf i s ≠ .error .noFault := by
  cases i with
  | read ch => cases hk : channelOperand ch <;> simp [effectOf, hk]
  | update ch delta =>
    cases hk : channelOperand ch with
    | none => simp [effectOf, hk]
    | some k => rcases trackUpdate_cases k (deltaOperand delta) s with ⟨-, ht⟩ | ⟨-, ht⟩ <;> simp [effectOf, hk, ht]
  | packet pkt sidx => exact decodePacket_ne_noFault _ sidx s
  | advance => exact nofun
  | resync => exact nofun
  | batch => exact nofun
  | dwell => exact nofun
  | status => exact nofun

theorem effectOf_ok_of_running {i : Instr} {s t : State} (hrun : s.running) (h : exec i s = .next t) (ht : t.running) :
    ∃ u r, effectOf i s = .ok (u, r) ∧ t = u.respond r := by
  cases he : effectOf i s with
  | ok p =>
    obtain ⟨u, r⟩ := p
    exact ⟨u, r, rfl, Host.Outcome.next.inj (h.symm.trans (exec_of_effectOf_ok hrun he))⟩
  | error c =>
    rcases exec_cases h with ⟨rfl, -⟩ | ⟨-, hf, -⟩ | ⟨-, -, c', he', rfl⟩ | ⟨-, -, u, r, he', -⟩
    · cases he
    · exact absurd hrun hf
    · exact absurd (he'.trans (congrArg _ ht)) (effectOf_ne_noFault i s)
    · exact absurd (he.symm.trans he') nofun

/-! ### Steps and runs of commands -/

theorem step_of_issue {s : State} {c : Issue} {rest : List Event} (hfits : c.instr.recordFits s.cfg.pktLen = true)
    (hin : s.input = c.event :: rest) : step s = exec c.instr (s.present rest c.env c.draws) :=
  step_of_command hin (decodeUndoesEncode _ _ hfits)

theorem input_of_step {s t : State} {c : Issue} {rest : List Event} (hin : s.input = c.event :: rest)
    (h : step s = .next t) : t.input = rest := by
  obtain ⟨t', ht', hanswer⟩ := everyCommandGetsAResponse s
  cases ht'.symm.trans h
  exact (hanswer _ _ _ _ hin).1

theorem running_of_step {s t : State} {c : Issue} {rest : List Event} (hin : s.input = c.event :: rest)
    (h : step s = .next t) (ht : t.running) : s.running := by
  by_contra hs
  have hreset : ∀ rest, s.input ≠ .reset :: rest := by simp [hin, Issue.event]
  obtain ⟨hfault, -⟩ := onlyResetClearsAFault s t hs h hreset
  exact hs (hfault.symm.trans ht)

theorem runCollect_succ_eq_some {n : Nat} {s u : State} {rs : List (Option Response)}
    (h : runCollect (n + 1) s = some (u, rs)) :
    ∃ t rs', step s = .next t ∧ runCollect n t = some (u, rs') ∧ rs = t.resp :: rs' := by
  obtain ⟨t, hstep⟩ := exists_step_eq_next s
  simp only [runCollect, hstep] at h
  split at h
  · rename_i hrest
    cases h
    exact ⟨t, _, hstep, hrest, rfl⟩
  · cases h

/-- A run of commands that ends in a running block was in running blocks all along (R27). -/
theorem running_of_runCollect {commands : List Issue} {s t : State} {rest : List Event} {rs : List (Option Response)}
    (hin : s.input = commands.map Issue.event ++ rest) (h : runCollect commands.length s = some (t, rs))
    (ht : t.running) : s.running := by
  induction commands generalizing s rs with
  | nil => cases h; exact ht
  | cons c cs ih =>
    obtain ⟨s', rs', hstep, hrest, -⟩ := runCollect_succ_eq_some h
    exact running_of_step hin hstep (ih (input_of_step hin hstep) hrest)

/-! ### UPDATE commands with commands between them that write no error -/

/-- CUR_ERR stays an s32 as the `deltas` are added one after another. -/
def State.SumsFit (s : State) (deltas : List Int) : Prop :=
  ∀ n, n ≤ deltas.length →
    -2147483648 ≤ s.curErr.toInt + (deltas.take n).sum ∧ s.curErr.toInt + (deltas.take n).sum ≤ 2147483647

theorem State.SumsFit.head {s : State} {delta : Int} {more : List Int} (h : s.SumsFit ([delta] ++ more)) :
    fitsS32 (s.curErr.toInt + delta) = true := by
  have hone := h 1 (by simp)
  have htake : ([delta] ++ more).take 1 = [delta] := rfl
  rw [htake, List.sum_singleton] at hone
  exact (fitsS32_iff _).mpr hone

theorem State.SumsFit.tail {s t : State} {k : Channel} {deltas more : List Int} (h : s.SumsFit (deltas ++ more))
    (hc : Compounds k deltas s t) : t.SumsFit more := by
  intro n hn
  have hlater := h (deltas.length + n) (by rw [List.length_append]; omega)
  rw [List.take_length_add_append, List.sum_append, ← add_assoc, ← hc.curErr_eq] at hlater
  exact hlater

/-- An UPDATE of channel `k` or a command that writes no error: READ of a channel, STATUS, DWELL or BATCH. -/
def UpdatesOnly (k : Channel) (i : Instr) : Prop :=
  (∃ d, i = .update (BitVec.ofNat 4 k.val) d) ∨ (∃ ch, i = .read ch ∧ ch.toNat < 9) ∨ i = .status ∨ i = .dwell ∨
    i = .batch

theorem UpdatesOnly.not_packet {k : Channel} {i : Instr} (h : UpdatesOnly k i) (pkt : List Byte) (sidx : Word32) :
    i ≠ .packet pkt sidx := by
  rintro rfl
  simp [UpdatesOnly] at h

theorem UpdatesOnly.staysOn {k : Channel} {i : Instr} (h : UpdatesOnly k i) (s : State) : StaysOn s k i where
  not_advance := by rintro rfl; simp [UpdatesOnly] at h
  not_resync := by rintro rfl; simp [UpdatesOnly] at h
  update_channel := by
    rintro ch d rfl
    obtain ⟨d', hd⟩ : ∃ d', Instr.update ch d = .update (BitVec.ofNat 4 k.val) d' := by simpa [UpdatesOnly] using h
    cases hd
    exact (channel_ofNat_toNat k).symm
  packet_channel := fun pkt sidx hi => absurd hi (h.not_packet pkt sidx)

theorem UpdatesOnly.effectOf_ok {k : Channel} {i : Instr} {s : State} {more : List Int} (h : UpdatesOnly k i)
    (hfit : s.SumsFit ((updateDelta i).toList ++ more)) : ∃ u r, effectOf i s = .ok (u, r) := by
  rcases h with ⟨d, rfl⟩ | ⟨ch, rfl, hch⟩ | rfl | rfl | rfl
  · have hsum := toInt_ofInt_of_fits hfit.head
    exact ⟨_, _, (effectOf_update_eq_ok_iff (channel_ofNat_toNat k)).mpr ⟨⟨_, hsum, rfl⟩, rfl⟩⟩
  · exact ⟨s, _, by simp only [effectOf, channelOperand_of_lt hch]; rfl⟩
  · exact ⟨_, _, rfl⟩
  · exact ⟨_, _, rfl⟩
  · exact ⟨_, _, rfl⟩

/-- One of the commands of R135, its sum in s32, completes. -/
theorem step_of_updatesOnly {s : State} {k : Channel} {c : Issue} {rest : List Event} {more : List Int}
    (hrun : s.running) (hc : UpdatesOnly k c.instr) (hin : s.input = c.event :: rest)
    (hfit : s.SumsFit ((updateDelta c.instr).toList ++ more)) :
    ∃ t, step s = .next t ∧ t.running ∧ Compounds k (updateDelta c.instr).toList s t ∧
      (c.instr ≠ .batch → t.cache = s.cache ∧ t.cacheCount = s.cacheCount) := by
  have hrun' : (s.present rest c.env c.draws).running := hrun
  obtain ⟨u, r, he⟩ := hc.effectOf_ok (s := s.present rest c.env c.draws) hfit
  obtain ⟨x, hcompounds, hadds⟩ := compounds_of_effectOf (hc.staysOn _) he
  obtain rfl := hadds.other hc.not_packet
  have hu : u.running := running_of_effectOf_ok hrun' he
  refine ⟨u.respond r, ?_, hu, (hcompounds.respond r).of_present, fun hbatch => ?_⟩
  · exact (step_of_issue (hc.staysOn s).recordFits hin).trans (exec_of_effectOf_ok hrun' he)
  · by_contra hne
    rcases (completes_of_effectOf he).writer_of_cache (not_and_or.mp hne) with hi | ⟨pkt, sidx, hi⟩
    · exact hbatch hi
    · exact hc.not_packet pkt sidx hi

theorem filterMap_cons_toList {α β : Type} (f : α → Option β) (a : α) (as : List α) :
    (a :: as).filterMap f = (f a).toList ++ as.filterMap f := by
  rw [List.filterMap_eq_flatMap_toList, List.flatMap_cons, ← List.filterMap_eq_flatMap_toList]

theorem runCollect_updates {commands : List Issue} {s : State} {k : Channel} {rest : List Event} (hrun : s.running)
    (hc : ∀ c ∈ commands, UpdatesOnly k c.instr) (hin : s.input = commands.map Issue.event ++ rest)
    (hfit : s.SumsFit (commands.filterMap fun c => updateDelta c.instr)) :
    ∃ t rs, runCollect commands.length s = some (t, rs) ∧ t.running ∧ t.input = rest ∧
      Compounds k (commands.filterMap fun c => updateDelta c.instr) s t ∧
      ((∀ c ∈ commands, c.instr ≠ .batch) → t.cache = s.cache ∧ t.cacheCount = s.cacheCount) := by
  induction commands generalizing s with
  | nil => exact ⟨s, [], rfl, hrun, hin, .of_same rfl rfl rfl rfl rfl, fun _ => ⟨rfl, rfl⟩⟩
  | cons c cs ih =>
    rw [List.forall_mem_cons] at hc
    rw [filterMap_cons_toList] at hfit ⊢
    obtain ⟨t, hstep, ht, hhead, hcache⟩ := step_of_updatesOnly hrun hc.1 hin hfit
    obtain ⟨u, rs, hrest, hu, huin, htail, hucache⟩ := ih ht hc.2 (input_of_step hin hstep) (hfit.tail hhead)
    refine ⟨u, t.resp :: rs, runCollect_succ hstep hrest, hu, huin, hhead.trans htail, fun hbatch => ?_⟩
    rw [List.forall_mem_cons] at hbatch
    exact ⟨(hucache hbatch.2).1.trans (hcache hbatch.1).1, (hucache hbatch.2).2.trans (hcache hbatch.1).2⟩

/-- Settles O29, by induction on the commands. -/
theorem updatesOfOneChannelCompound : Obligations.UpdatesOfOneChannelCompound := by
  rintro s k commands deltas rest hrun hc rfl hne hin hfit
  obtain ⟨t, rs, hcollect, ht, htin, hcompounds, hcache⟩ := runCollect_updates hrun hc hin hfit
  obtain ⟨hentry, hvalid⟩ := hcompounds.holds (.inl hne)
  exact ⟨t, rs, hcollect, ht, htin, hcompounds.curErr_eq, hentry, hvalid, hcompounds.others, hcompounds.hopIdx_eq,
    hcompounds.cfg_eq, hcache⟩

/-! ### UPDATE and PACKET commands -/

theorem compounds_of_step {s t : State} {k : Channel} {c : Issue} {rest : List Event} (hrun : s.running)
    (hc : StaysOn s k c.instr) (hin : s.input = c.event :: rest) (h : step s = .next t) (ht : t.running) :
    ∃ x a, Compounds k x.toList s t ∧ t.resp = some a ∧ Adds s.cfg c.env c.instr a x := by
  rw [step_of_issue hc.recordFits hin] at h
  obtain ⟨u, r, he, rfl⟩ := effectOf_ok_of_running (s := s.present rest c.env c.draws) hrun h ht
  obtain ⟨x, hcompounds, hadds⟩ := compounds_of_effectOf (s := s.present rest c.env c.draws) (hc.congr rfl rfl) he
  exact ⟨x, r, (hcompounds.respond r).of_present, rfl, hadds⟩

theorem compounds_of_runCollect {commands : List Issue} {s t : State} {k : Channel} {rest : List Event}
    {rs : List (Option Response)} (hrun : s.running) (hc : ∀ c ∈ commands, StaysOn s k c.instr)
    (hin : s.input = commands.map Issue.event ++ rest) (h : runCollect commands.length s = some (t, rs))
    (ht : t.running) :
    ∃ deltas : List (Option Int), deltas.length = commands.length ∧
      (∀ (n : Nat) (c : Issue), commands[n]? = some c →
        ∃ x a, deltas[n]? = some x ∧ rs[n]? = some (some a) ∧ Adds s.cfg c.env c.instr a x) ∧
      Compounds k (deltas.filterMap id) s t ∧ t.input = rest := by
  induction commands generalizing s rs with
  | nil => cases h; exact ⟨[], rfl, fun n c hn => by simp at hn, .of_same rfl rfl rfl rfl rfl, hin⟩
  | cons c cs ih =>
    rw [List.forall_mem_cons] at hc
    obtain ⟨s', rs', hstep, hrest, rfl⟩ := runCollect_succ_eq_some h
    have hin' := input_of_step hin hstep
    have hrun' := running_of_runCollect hin' hrest ht
    obtain ⟨x, a, hhead, ha, hadds⟩ := compounds_of_step hrun hc.1 hin hstep hrun'
    have hc' : ∀ c' ∈ cs, StaysOn s' k c'.instr := fun c' hmem =>
      (hc.2 c' hmem).congr hhead.cfg_eq hhead.currentChannel_eq
    obtain ⟨deltas, hlen, hanswers, htail, htin⟩ := ih hrun' hc' hin' hrest
    rw [hhead.cfg_eq] at hanswers
    refine ⟨x :: deltas, congrArg (· + 1) hlen, fun n c' hn => ?_, ?_, htin⟩
    · cases n with
      | zero => cases hn; exact ⟨x, a, rfl, congrArg some ha, hadds⟩
      | succ n => exact hanswers n c' hn
    · rw [filterMap_cons_toList]
      exact hhead.trans htail

/-- Settles O30, by induction on the commands: each state of the run is running, so no command faulted. -/
theorem updatesAndPacketsOfOneChannelCompound : Obligations.UpdatesAndPacketsOfOneChannelCompound := by
  intro s t k commands rest rs hrun hc hin hcollect ht
  have hstays : ∀ c ∈ commands, StaysOn s k c.instr := fun c hmem =>
    let ⟨hadvance, hresync, hupdate, hpacket⟩ := hc c hmem
    ⟨hadvance, hresync, hupdate, hpacket⟩
  obtain ⟨deltas, hlen, hanswers, hcompounds, htin⟩ := compounds_of_runCollect hrun hstays hin hcollect ht
  refine ⟨deltas, hlen, fun n c hn => ?_, hcompounds.curErr_eq, fun hne => hcompounds.holds (.inl hne),
    hcompounds.others, hcompounds.hopIdx_eq, hcompounds.cfg_eq, htin⟩
  obtain ⟨x, a, hx, ha, hadds⟩ := hanswers n c hn
  exact ⟨x, a, hx, ha, hadds.accepted, hadds.dropped, hadds.other⟩

end Sys2Proof.Machine
end

section
/-! PROOFS. The entry an UPDATE wrote is the error of a later DESCRIBE (R136). -/

namespace Sys2Proof.Machine

/-- A command that is neither an UPDATE of channel `k` nor a PACKET leaves the entry of `k` as it was. -/
theorem exec_keeps_entry {i : Instr} {s t : State} {k : Channel} (h : exec i s = .next t)
    (hupdate : ∀ d, i ≠ .update (BitVec.ofNat 4 k.val) d) (hpacket : ∀ pkt sidx, i ≠ .packet pkt sidx) :
    t.lutVal[k] = s.lutVal[k] ∧ t.lutValid.getLsbD k.val = s.lutValid.getLsbD k.val := by
  rcases exec_writes h with ⟨-, c, -, rfl⟩ | ⟨u, r, rfl, hc⟩
  · exact ⟨rfl, rfl⟩
  · by_contra hne
    rcases hc.writer_of_entry hne with ⟨d, hi⟩ | ⟨-, pkt, sidx, hi⟩
    · exact hupdate d hi
    · exact hpacket pkt sidx hi

theorem execAll_keeps_entry {between : List Instr} {s u : State} {k : Channel}
    (hc : ∀ c ∈ between, (∀ d, c ≠ .update (BitVec.ofNat 4 k.val) d) ∧ ∀ pkt sidx, c ≠ .packet pkt sidx)
    (h : execAll between s = some u) :
    u.lutVal[k] = s.lutVal[k] ∧ u.lutValid.getLsbD k.val = s.lutValid.getLsbD k.val := by
  induction between generalizing s with
  | nil => cases h; exact ⟨rfl, rfl⟩
  | cons c cs ih =>
    rw [List.forall_mem_cons] at hc
    obtain ⟨t, ht⟩ := exists_exec_eq_next c s
    simp only [execAll, ht] at h
    obtain ⟨hval, hvalid⟩ := exec_keeps_entry ht hc.1.1 hc.1.2
    obtain ⟨hval', hvalid'⟩ := ih hc.2 h
    exact ⟨hval'.trans hval, hvalid'.trans hvalid⟩

/-- DESCRIBE on a channel with an entry reports the entry (R111). -/
theorem describe_of_valid {s : State} {k : Channel} (hk : s.currentChannel = k)
    (hvalid : s.lutValid.getLsbD k.val = true) :
    (describe s).2.channel = k ∧ (describe s).2.err = s.lutVal[k] := by
  subst hk
  rw [describe_eq]
  exact ⟨rfl, errorOn_of_valid hvalid⟩

/-- Settles O31: the entry holds the sum after the UPDATE, and the commands between keep it. -/
theorem describeReportsTheUpdatedError : Obligations.DescribeReportsTheUpdatedError := by
  intro s t u k delta between i hrun hexec ht hbetween hall hk
  obtain ⟨t', r, he, rfl⟩ := effectOf_ok_of_running hrun hexec ht
  obtain ⟨⟨v, hv, rfl⟩, -⟩ := (effectOf_update_eq_ok_iff (channel_ofNat_toNat k)).mp he
  obtain ⟨hentry, hvalid⟩ := (Compounds.of_track (k := k) hv).holds (.inl (List.cons_ne_nil _ _))
  obtain ⟨hval', hvalid'⟩ := execAll_keeps_entry hbetween hall
  obtain ⟨hchannel, herr⟩ := describe_of_valid (s := { u with hopIdx := i }) hk (hvalid'.trans hvalid)
  refine ⟨hchannel, ?_⟩
  rw [herr]
  exact (congrArg BitVec.toInt (hval'.trans hentry)).trans hv

end Sys2Proof.Machine
end

section
/-! PROOFS. The measurement window (R141, R142) and the reference evaluation on samples that are not finite (R140). -/

namespace Sys2Proof.Machine

/-! ### The window -/

theorem traceWindow_length {samples : List F64} {lo hi : Nat} (h : hi ≤ samples.length) :
    (traceWindow samples lo hi).length = hi - lo := by
  rw [traceWindow, List.length_take, List.length_drop]
  omega

theorem traceWindow_getElem? {samples : List F64} {lo hi j : Nat} (h : j < hi - lo) :
    (traceWindow samples lo hi)[j]? = samples[lo + j]? := by
  rw [traceWindow, List.getElem?_take_of_lt h, List.getElem?_drop]

/-- The window of MEASURE: symbol periods 8 to 23 after SIDX (R141). -/
def measureWindow (c : Config) (env : Env) (sidx : Nat) : List F64 :=
  traceWindow env.trace (sidx + windowFirst * c.symbolLen) (sidx + windowEnd * c.symbolLen)

theorem window_width (sidx symbolLen : Nat) :
    (sidx + windowEnd * symbolLen) - (sidx + windowFirst * symbolLen) = 16 * symbolLen := by
  unfold windowEnd windowFirst
  omega

/-- MEASURE of a window inside the trace is FREQ_EST of it (R142). -/
theorem measureError_of_inside {c : Config} {env : Env} {sidx : Nat} {e : Option Int}
    (hin : sidx + windowEnd * c.symbolLen ≤ env.trace.length) (he : freqEstOf c (measureWindow c env sidx) = e) :
    measureError c env sidx = e.elim (.error .freqInvalid) .ok := by
  subst he
  simp only [measureError, Nat.not_lt.mpr hin, if_false, measureWindow]
  cases freqEstOf c _ <;> rfl

/-- Settles O33. -/
theorem measureReadsTheWindow : Obligations.MeasureReadsTheWindow := by
  refine fun c env sidx => ⟨measureError_traceBounds, fun hin => ⟨measureWindow c env sidx, ?_, fun j hj => ?_,
    fun e he => measureError_of_inside hin he, fun he => measureError_of_inside hin he⟩⟩
  · exact (traceWindow_length hin).trans (window_width sidx c.symbolLen)
  · exact traceWindow_getElem? ((window_width sidx c.symbolLen).symm ▸ hj)

/-! ### Operands that are not finite -/

theorem isFinite_nanF64 : isFinite nanF64 = false := by decide

theorem isFinite_infF64 (s : Bool) : isFinite (infF64 s) = false := by cases s <;> decide

/-- A pattern that is not finite is a NaN or an infinity. -/
theorem nonfinite_cases {x : F64} (h : isFinite x = false) : unpackF64 x = .nan ∨ ∃ s, unpackF64 x = .inf s := by
  cases hx : unpackF64 x with
  | nan => exact .inl rfl
  | inf s => exact .inr ⟨s, rfl⟩
  | finite s m e => simp [isFinite, hx] at h

theorem isFinite_fadd_left {x : F64} (h : isFinite x = false) (y : F64) : isFinite (fadd x y) = false := by
  rcases nonfinite_cases h with hx | ⟨s, hx⟩
  · simp [fadd, hx, isFinite_nanF64]
  · cases hy : unpackF64 y with
    | nan => simp [fadd, hx, hy, isFinite_nanF64]
    | inf s' => simp only [fadd, hx, hy]; split <;> simp [isFinite_nanF64, isFinite_infF64]
    | finite s' m e => simp [fadd, hx, hy, isFinite_infF64]

theorem isFinite_fadd_right {y : F64} (h : isFinite y = false) (x : F64) : isFinite (fadd x y) = false := by
  cases hx : isFinite x with
  | false => exact isFinite_fadd_left hx y
  | true =>
    obtain ⟨s, m, e, hx, -⟩ := finite_cases hx
    rcases nonfinite_cases h with hy | ⟨s', hy⟩
    · simp [fadd, hx, hy, isFinite_nanF64]
    · simp [fadd, hx, hy, isFinite_infF64]

theorem isFinite_fmul_left {x : F64} (h : isFinite x = false) (y : F64) : isFinite (fmul x y) = false := by
  rcases nonfinite_cases h with hx | ⟨s, hx⟩
  · simp [fmul, hx, isFinite_nanF64]
  · cases hy : unpackF64 y with
    | nan => simp [fmul, hx, hy, isFinite_nanF64]
    | inf s' => simp [fmul, hx, hy, isFinite_infF64]
    | finite s' m e => simp only [fmul, hx, hy]; split <;> simp [isFinite_nanF64, isFinite_infF64]

theorem isFinite_fdiv_left {x : F64} (h : isFinite x = false) (y : F64) : isFinite (fdiv x y) = false := by
  rcases nonfinite_cases h with hx | ⟨s, hx⟩
  · simp [fdiv, hx, isFinite_nanF64]
  · cases hy : unpackF64 y with
    | nan => simp [fdiv, hx, hy, isFinite_nanF64]
    | inf s' => simp [fdiv, hx, hy, isFinite_nanF64]
    | finite s' m e => simp [fdiv, hx, hy, isFinite_infF64]

/-! ### The reference evaluation -/

/-- A sum with a summand that is not finite is not finite. -/
theorem isFinite_foldl_fadd {xs : List F64} {acc : F64} (h : isFinite acc = false ∨ ∃ x ∈ xs, isFinite x = false) :
    isFinite (xs.foldl fadd acc) = false := by
  induction xs generalizing acc with
  | nil => exact h.resolve_right (by simp)
  | cons y ys ih =>
    rw [List.foldl_cons]
    apply ih
    rcases h with hacc | ⟨x, hx, hfin⟩
    · exact .inl (isFinite_fadd_left hacc y)
    · rcases List.mem_cons.mp hx with rfl | hys
      · exact .inl (isFinite_fadd_right hfin acc)
      · exact .inr ⟨x, hys, hfin⟩

/-- A sample that is not finite leaves no finite y (R142). -/
theorem isFinite_windowFrequency {rate : Nat} {xs : List F64} (h : ∃ x ∈ xs, isFinite x = false) :
    isFinite (windowFrequency rate xs) = false := by
  have hsum := isFinite_foldl_fadd (acc := 0#64) (.inr h)
  have hmean := isFinite_fdiv_left hsum (f64OfNat xs.length)
  have hhz := isFinite_fdiv_left (isFinite_fmul_left hmean (f64OfNat rate)) twoPi
  exact isFinite_fadd_right hhz (f64OfNat nominalDeviation)

theorem freqEstRef_of_nonfinite {rate : Nat} {xs : List F64} (h : ∃ x ∈ xs, isFinite x = false) :
    freqEstRef rate xs = none := by
  rw [freqEstRef, truncF64_of_not_finite (isFinite_windowFrequency h)]

theorem fitsS32_of_freqEstRef {rate : Nat} {xs : List F64} {e : Int} (h : freqEstRef rate xs = some e) :
    fitsS32 e = true := by
  unfold freqEstRef at h
  split at h
  · cases h
  · split at h <;> cases h
    assumption

/-- Settles O34. -/
theorem referenceEvaluationRefusesNonFiniteSamples : Obligations.ReferenceEvaluationRefusesNonFiniteSamples :=
  fun _ _ => ⟨freqEstRef_of_nonfinite, fun e h => (fitsS32_iff e).mp (fitsS32_of_freqEstRef h)⟩

/-- Settles O35: the finite windows are evaluated, and the last two hold a NaN and an infinity. -/
theorem referenceEvaluationOnTheSpecsWindows : Obligations.ReferenceEvaluationOnTheSpecsWindows := by
  have hnan : isFinite 0x7FF8000000000000#64 = false := by decide
  have hinf : isFinite 0x7FF0000000000000#64 = false := by decide
  refine ⟨?_, ?_, ?_, ?_, ?_, ?_, freqEstRef_of_nonfinite ⟨_, List.mem_cons_self, hnan⟩,
    freqEstRef_of_nonfinite ⟨_, List.mem_cons_self, hinf⟩⟩
  all_goals decide +kernel

end Sys2Proof.Machine
end

section
/-! PROOFS. BATCH, and PACKET's outcomes in the order of R152. -/

namespace Sys2Proof.Machine

/-! ### BATCH -/

/-- Settles O38. -/
theorem batchEmptiesTheCache : Obligations.BatchEmptiesTheCache := by
  refine ⟨by decide, fun s => ⟨fun hrun => ?_, fun hf => exec_of_faulted_of_ne_status hf (by decide)⟩⟩
  have heffect : effectOf .batch s = .ok (s.clearCache, okResponse) := rfl
  exact exec_of_effectOf_ok hrun heffect

/-! ### Steps 2 and 3: the duplicate cache and the checksum gate -/

theorem checksumPasses_eq_true_iff {c : Config} {b : List Byte} :
    checksumPasses c b = true ↔ checksumOf c (b.drop 2) = 0 :=
  beq_iff_eq

section

variable {s : State} {b : List Byte}

theorem decodePacket_of_duplicate (h : b ∈ s.cache) (sidx : Word32) :
    decodePacket b sidx s = .ok (s, droppedResponse) :=
  if_pos h

theorem decodePacket_of_full (hnew : b ∉ s.cache) (hfull : s.cacheSize = s.cfg.dedupDepth) (sidx : Word32) :
    decodePacket b sidx s = .error .cacheFull := by
  rw [decodePacket, if_neg hnew, if_pos hfull]

theorem decodePacket_of_failed (hnew : b ∉ s.cache) (hroom : s.cacheSize ≠ s.cfg.dedupDepth)
    (hsum : checksumOf s.cfg (b.drop 2) ≠ 0) (sidx : Word32) :
    decodePacket b sidx s = .ok (s.insertKey b, droppedResponse) := by
  rw [decodePacket, if_neg hnew, if_neg hroom, if_neg (mt checksumPasses_eq_true_iff.mp hsum)]

theorem decodePacket_of_passed (hnew : b ∉ s.cache) (hroom : s.cacheSize ≠ s.cfg.dedupDepth)
    (hsum : checksumOf s.cfg (b.drop 2) = 0) (sidx : Word32) :
    decodePacket b sidx s = acceptPacket b sidx (s.insertKey b) := by
  rw [decodePacket, if_neg hnew, if_neg hroom, if_pos (checksumPasses_eq_true_iff.mpr hsum)]

end

/-- The key of a packet the host can present (R71, R155). -/
theorem effectOf_packet {s : State} {pkt : List Byte} (h : pkt.length = s.cfg.pktLen) (sidx : Word32) :
    effectOf (.packet pkt sidx) s = decodePacket (pkt.map rev8) sidx s := by
  rw [effectOf, revPkt_of_length h]

theorem exec_packet_of_duplicate {s : State} {pkt : List Byte} (hrun : s.running) (hlen : pkt.length = s.cfg.pktLen)
    (hdup : pkt.map rev8 ∈ s.cache) (sidx : Word32) : exec (.packet pkt sidx) s = .next (s.respond droppedResponse) :=
  exec_of_effectOf_ok hrun ((effectOf_packet hlen sidx).trans (decodePacket_of_duplicate hdup sidx))

/-- Settles O39. -/
theorem duplicatePacketIsDropped : Obligations.DuplicatePacketIsDropped :=
  fun s _ sidx env hrun hlen hdup => exec_packet_of_duplicate (s := { s with env := env }) hrun hlen hdup sidx

/-- Settles O40. -/
theorem newKeyOnAFullCacheFaults : Obligations.NewKeyOnAFullCacheFaults :=
  fun _ _ sidx hrun hlen hnew hfull =>
    exec_of_effectOf_error hrun ((effectOf_packet hlen sidx).trans (decodePacket_of_full hnew hfull sidx))

/-- Settles O41. -/
theorem packetThatFailsTheChecksumIsDropped : Obligations.PacketThatFailsTheChecksumIsDropped :=
  fun s _ sidx hrun hlen hnew hroom hsum => ⟨s.countAfterInsertion, countAfterInsertion_of_fits,
    exec_of_effectOf_ok hrun ((effectOf_packet hlen sidx).trans (decodePacket_of_failed hnew hroom hsum sidx))⟩

/-! ### Steps 4 and 5: MEASURE and TRACK_UPDATE -/

@[simp] theorem insertKey_currentChannel (s : State) (b : List Byte) :
    (s.insertKey b).currentChannel = s.currentChannel := rfl

section

variable {s : State} {sidx : Word32} {e : Int}

theorem acceptPacket_of_measureError {c : FaultCode} (h : measureError s.cfg s.env sidx.toNat = .error c)
    (b : List Byte) : acceptPacket b sidx (s.insertKey b) = .error c := by
  simp [acceptPacket, sampleIndexOperand, h]

theorem acceptPacket_of_overflow (h : measureError s.cfg s.env sidx.toNat = .ok e)
    (hover : s.curErr.toInt + e < -2147483648 ∨ 2147483647 < s.curErr.toInt + e) (b : List Byte) :
    acceptPacket b sidx (s.insertKey b) = .error .errOverflow := by
  have htrack (k : Channel) := trackUpdate_of_overflow (s := s.insertKey b) (k := k) hover
  simp [acceptPacket, sampleIndexOperand, h, htrack]

theorem acceptPacket_of_sum {v : Word32} (h : measureError s.cfg s.env sidx.toNat = .ok e)
    (hv : v.toInt = s.curErr.toInt + e) (b : List Byte) :
    acceptPacket b sidx (s.insertKey b) =
      .ok (((s.insertKey b).setCurErr v).writeLut s.currentChannel v, messageResponse (frame b sidx)) := by
  have htrack (k : Channel) := trackUpdate_eq_ok_iff (s := s.insertKey b) (k := k).mpr ⟨v, hv, rfl⟩
  simp [acceptPacket, sampleIndexOperand, h, htrack]

end

/-- Settles O43. -/
theorem packetFaultsDiscardTheInsertion : Obligations.PacketFaultsDiscardTheInsertion := by
  intro s pkt sidx hrun hlen hnew hroom hsum
  have heffect := (effectOf_packet hlen sidx).trans (decodePacket_of_passed hnew hroom hsum sidx)
  have hraises {c : FaultCode} (h : acceptPacket (pkt.map rev8) sidx (s.insertKey (pkt.map rev8)) = .error c) :
      raises (.packet pkt sidx) s c :=
    exec_of_effectOf_error hrun (heffect.trans h)
  refine ⟨fun hout => hraises (acceptPacket_of_measureError (measureError_traceBounds hout) _), fun hin hnone => ?_,
    fun e he hover => hraises (acceptPacket_of_overflow he hover _)⟩
  have hwindow : freqEstOf s.cfg (measureWindow s.cfg s.env sidx.toNat) = none := by
    rw [measureWindow, traceWindow, window_width]
    exact hnone
  exact hraises (acceptPacket_of_measureError (measureError_of_inside hin hwindow) _)

/-! ### Step 6: the message in W0 (R84, R180, R182) -/

theorem sensorCode_sensorOfCode : ∀ c : BitVec 4, sensorCode (sensorOfCode c) = c := by decide

theorem sensorKnown_sensorOfCode : ∀ c : BitVec 4,
    sensorKnown (sensorOfCode c) = decide (c.toNat ∈ [2, 4, 5, 6, 7, 8, 9, 10, 14]) := by decide

theorem toNat_append_eq_add {m n : Nat} (x : BitVec m) (y : BitVec n) :
    (x ++ y).toNat = x.toNat * 2 ^ n + y.toNat := by
  rw [BitVec.toNat_append, ← Nat.shiftLeft_add_eq_or_of_lt y.isLt, Nat.shiftLeft_eq]

/-- The layout of W0 (R84). -/
theorem messageResponse_w0_toNat (m : Message) :
    (messageResponse m).w0.toNat = 1 + 16 * m.id.toNat + 256 * (sensorCode m.sensor).toNat
      + (if sensorKnown m.sensor = true then 4096 else 0) + 65536 * m.windSpeed.toNat + 16777216 * m.windDir.toNat := by
  simp only [messageResponse, toNat_append_eq_add, BitVec.toNat_ofBool]
  cases sensorKnown m.sensor <;> simp <;> omega

/-- ID and SENSOR are the nibbles of P[0] (R180). -/
theorem nibbles_toNat (x : Byte) :
    (x.extractLsb' 0 4).toNat = x.toNat % 16 ∧ (x.extractLsb' 4 4).toNat = x.toNat / 16 := by
  simp only [BitVec.extractLsb'_toNat, Nat.shiftRight_eq_div_pow]
  omega

theorem frame_of_drop {b : List Byte} {p0 p1 p2 : Byte} {tail : List Byte} (h : b.drop 2 = p0 :: p1 :: p2 :: tail)
    (sidx : Word32) :
    frame b sidx =
      { id := p0.extractLsb' 0 4
        sensor := sensorOfCode (p0.extractLsb' 4 4)
        windSpeed := p1
        windDir := p2
        sidx := sidx
        payload := p0 :: p1 :: p2 :: tail } := by
  rw [frame, prefixLen, h]
  rfl

/-- W0 of the message of a packet whose stripped bytes begin with P[0], P[1] and P[2] (R84, R180). -/
theorem messageResponse_frame_w0_toNat {b : List Byte} {p0 p1 p2 : Byte} {tail : List Byte}
    (h : b.drop 2 = p0 :: p1 :: p2 :: tail) (sidx : Word32) :
    (messageResponse (frame b sidx)).w0.toNat = 1 + 16 * (p0.toNat % 16) + 256 * (p0.toNat / 16)
      + (if p0.toNat / 16 ∈ [2, 4, 5, 6, 7, 8, 9, 10, 14] then 4096 else 0)
      + 65536 * p1.toNat + 16777216 * p2.toNat := by
  obtain ⟨hid, hsensor⟩ := nibbles_toNat p0
  rw [messageResponse_w0_toNat, frame_of_drop h]
  simp only [sensorCode_sensorOfCode, sensorKnown_sensorOfCode, decide_eq_true_eq, hid, hsensor]

/-- Settles O42. -/
theorem validPacketIsDecoded : Obligations.ValidPacketIsDecoded := by
  refine ⟨fun pkt sidx => (encode_cw _).trans (by simp [encodeWord, channelBits, opcode]), ?_⟩
  rintro s pkt sidx e v k p p0 p1 p2 tail hrun hlen hnew hroom rfl hp hsum he hv rfl
  have heffect := (effectOf_packet hlen sidx).trans (decodePacket_of_passed hnew hroom hsum sidx)
  have haccept := acceptPacket_of_sum he hv (pkt.map rev8)
  exact ⟨_, _, s.countAfterInsertion, countAfterInsertion_of_fits, lutValidBit_setLutValid s.lutValid s.currentChannel,
    messageResponse_frame_w0_toNat hp sidx, exec_of_effectOf_ok hrun (heffect.trans haccept)⟩

end Sys2Proof.Machine
end

section
/-! PROOFS. BATCH and PACKET commands compute the batch function (R150, R163), whatever the seen policy (R165). -/

namespace Sys2Proof.Machine

/-! ### The packets that decode -/

theorem decodedPackets_cons (c : Config) (earlier : List (List Byte)) (p : RawPacket) (rest : List RawPacket) :
    decodedPackets c earlier (p :: rest) =
      decodedPackets c earlier [p] ++ decodedPackets c (p.key c :: earlier) rest := by
  simp only [decodedPackets]
  split
  · rfl
  · rfl

theorem decodedPackets_singleton_of_new {c : Config} {earlier : List (List Byte)} {p : RawPacket}
    (hnew : p.key c ∉ earlier) (hsum : checksumPasses c (p.key c) = true) : decodedPackets c earlier [p] = [p] :=
  if_pos ⟨hnew, hsum⟩

theorem decodedPackets_singleton_of_duplicate {c : Config} {earlier : List (List Byte)} {p : RawPacket}
    (h : p.key c ∈ earlier) : decodedPackets c earlier [p] = [] :=
  if_neg fun hnew => hnew.1 h

theorem decodedPackets_singleton_of_failed {c : Config} {earlier : List (List Byte)} {p : RawPacket}
    (h : checksumPasses c (p.key c) = false) : decodedPackets c earlier [p] = [] :=
  if_neg fun hpass => Bool.false_ne_true (h.symm.trans hpass.2)

/-- R165: the two policies agree, since a key they differ on fails the checksum and so decodes under neither. The keys
seen before the packets may differ in the same way. -/
theorem decodedPackets_eq_validSeen {c : Config} (packets : List RawPacket) {earlier valid : List (List Byte)}
    (h : ∀ b, checksumPasses c b = true → (b ∈ earlier ↔ b ∈ valid)) :
    decodedPackets c earlier packets = decodedPacketsValidSeen c valid packets := by
  induction packets generalizing earlier valid with
  | nil => rfl
  | cons p rest ih =>
    have hdecodes : (p.key c ∉ earlier ∧ checksumPasses c (p.key c) = true) ↔
        (p.key c ∉ valid ∧ checksumPasses c (p.key c) = true) :=
      and_congr_left fun hsum => not_congr (h _ hsum)
    simp only [decodedPackets, decodedPacketsValidSeen, hdecodes]
    split
    · exact congrArg (p :: ·) (ih fun b hb => by rw [List.mem_cons, List.mem_cons, h b hb])
    · rename_i hnot
      refine ih fun b hb => ?_
      rw [List.mem_cons, h b hb]
      exact or_iff_right_of_imp fun hkey => by_contra fun hnew => hnot (hkey ▸ ⟨hnew, hb⟩)

/-! ### What a run of packets leaves and answers -/

theorem acceptedResponses_append (rs rs' : List (Option Response)) :
    acceptedResponses (rs ++ rs') = acceptedResponses rs ++ acceptedResponses rs' := by
  simp [acceptedResponses]

/-- The packet `p` measures `e` (R159). -/
def RawPacket.Measures (c : Config) (p : RawPacket) (e : Int) : Prop := measureError c p.env p.sidx.toNat = .ok e

/-- A run from `s` to `t` with the responses `rs` in which exactly the packets `decoded` decode: their messages are the
accepted responses, and their measurements compound on the channel in use. -/
structure Decodes (decoded : List RawPacket) (rs : List (Option Response)) (s t : State) : Prop where
  messages : acceptedResponses rs = decoded.map fun p => messageResponse (p.message s.cfg)
  measured : ∃ es, List.Forall₂ (RawPacket.Measures s.cfg) decoded es ∧ Compounds s.currentChannel es s t
  entries_of_nil : decoded = [] → t.lutVal = s.lutVal ∧ t.lutValid = s.lutValid

namespace Decodes

variable {decoded more : List RawPacket} {rs rs' : List (Option Response)} {s t u : State}

/-- A step that answers no message and writes neither the hop index nor the error tables. -/
theorem of_same (hrs : acceptedResponses rs = []) (hcfg : t.cfg = s.cfg) (hhop : t.hopIdx = s.hopIdx)
    (herr : t.curErr = s.curErr) (hval : t.lutVal = s.lutVal) (hvalid : t.lutValid = s.lutValid) :
    Decodes [] rs s t where
  messages := hrs
  measured := ⟨[], .nil, .of_same hcfg hhop herr hval hvalid⟩
  entries_of_nil := fun _ => ⟨hval, hvalid⟩

theorem cfg_eq (h : Decodes decoded rs s t) : t.cfg = s.cfg :=
  let ⟨_, _, hc⟩ := h.measured
  hc.cfg_eq

theorem append (h : Decodes decoded rs s t) (h' : Decodes more rs' t u) :
    Decodes (decoded ++ more) (rs ++ rs') s u := by
  obtain ⟨es, hes, hc⟩ := h.measured
  obtain ⟨es', hes', hc'⟩ := h'.measured
  rw [hc.cfg_eq] at hes'
  rw [hc.currentChannel_eq] at hc'
  refine ⟨?_, ⟨es ++ es', List.rel_append hes hes', hc.trans hc'⟩, fun hnil => ?_⟩
  · rw [acceptedResponses_append, h.messages, h'.messages, hc.cfg_eq, List.map_append]
  · obtain ⟨hdecoded, hmore⟩ := List.append_eq_nil_iff.mp hnil
    obtain ⟨hval, hvalid⟩ := h.entries_of_nil hdecoded
    obtain ⟨hval', hvalid'⟩ := h'.entries_of_nil hmore
    exact ⟨hval'.trans hval, hvalid'.trans hvalid⟩

theorem of_present {rest : List Event} {env : Env} {draws : Draws}
    (h : Decodes decoded rs (s.present rest env draws) t) : Decodes decoded rs s t :=
  ⟨h.messages, h.measured.imp fun _ => And.imp_right Compounds.of_present, h.entries_of_nil⟩

theorem respond (h : Decodes decoded rs s t) (r : Response) : Decodes decoded rs s (t.respond r) :=
  ⟨h.messages, h.measured.imp fun _ => And.imp_right (Compounds.respond · r), h.entries_of_nil⟩

end Decodes

/-! ### One PACKET command -/

def RawPacket.issue (draws : Draws) (p : RawPacket) : Issue := ⟨.packet p.pkt p.sidx, p.env, draws⟩

theorem acceptedResponses_of_w0_eq_zero {r : Response} (h : r.w0 = 0) : acceptedResponses [some r] = [] := by
  simp [acceptedResponses, h]

theorem acceptedResponses_message (m : Message) :
    acceptedResponses [some (messageResponse m)] = [messageResponse m] := by
  simp [acceptedResponses, messageResponse_accept]

/-- PACKET as a batch of one packet: CACHE stands for the keys of the packets before it, and takes the key. -/
theorem decodes_of_decodePacket {s u : State} {r : Response} {p : RawPacket} {earlier : List (List Byte)}
    (henv : s.env = p.env) (hseen : ∀ b, b ∈ s.cache ↔ b ∈ earlier)
    (h : decodePacket (p.key s.cfg) p.sidx s = .ok (u, r)) :
    Decodes (decodedPackets s.cfg earlier [p]) [some r] s u ∧ ∀ b, b ∈ u.cache ↔ b ∈ p.key s.cfg :: earlier := by
  have hinsert : ∀ b, b ∈ s.cache ++ [p.key s.cfg] ↔ b ∈ p.key s.cfg :: earlier := fun b => by
    rw [List.mem_append, List.mem_singleton, List.mem_cons, hseen, or_comm]
  rcases decodePacket_cases (p.key s.cfg) p.sidx s with ⟨hdup, hd⟩ | ⟨-, -, hd⟩ | ⟨-, -, hsum, hd⟩ |
    ⟨hnew, -, hsum, hd⟩ <;> rw [hd] at h
  · cases h
    rw [decodedPackets_singleton_of_duplicate ((hseen _).mp hdup)]
    refine ⟨.of_same (acceptedResponses_of_w0_eq_zero rfl) rfl rfl rfl rfl rfl, fun b => ?_⟩
    rw [List.mem_cons, hseen]
    exact (or_iff_right_of_imp fun hb => hb ▸ (hseen _).mp hdup).symm
  · cases h
  · cases h
    rw [decodedPackets_singleton_of_failed hsum]
    exact ⟨.of_same (acceptedResponses_of_w0_eq_zero rfl) rfl rfl rfl rfl rfl, hinsert⟩
  · rcases acceptPacket_cases (p.key s.cfg) p.sidx (s.insertKey (p.key s.cfg)) with
      ⟨c, -, ha⟩ | ⟨e, -, -, ha⟩ | ⟨e, he, hfit, ha⟩ <;> rw [ha] at h
    · cases h
    · cases h
    · cases h
      rw [decodedPackets_singleton_of_new (mt (hseen _).mpr hnew) hsum]
      have hkey : Compounds s.currentChannel [] s (s.insertKey (p.key s.cfg)) := .of_same rfl rfl rfl rfl rfl
      have hmeasures : p.Measures s.cfg e := by
        rw [RawPacket.Measures, ← henv]
        exact he
      have hcompounds := hkey.trans (.of_track (toInt_ofInt_of_fits hfit))
      exact ⟨⟨acceptedResponses_message _, ⟨[e], .cons hmeasures .nil, hcompounds⟩, nofun⟩, hinsert⟩

/-- The step of a PACKET command that does not fault. -/
theorem decodes_of_step {s t : State} {p : RawPacket} {draws : Draws} {rest : List Event} {earlier : List (List Byte)}
    (hrun : s.running) (hlen : p.pkt.length = s.cfg.pktLen) (hseen : ∀ b, b ∈ s.cache ↔ b ∈ earlier)
    (hin : s.input = p.event draws :: rest) (h : step s = .next t) (ht : t.running) :
    Decodes (decodedPackets s.cfg earlier [p]) [t.resp] s t ∧ ∀ b, b ∈ t.cache ↔ b ∈ p.key s.cfg :: earlier := by
  have hfits : (p.issue draws).instr.recordFits s.cfg.pktLen = true := decide_eq_true hlen
  rw [step_of_issue hfits hin] at h
  obtain ⟨u, r, he, rfl⟩ := effectOf_ok_of_running (s := s.present rest p.env draws) hrun h ht
  obtain ⟨hdecodes, hcache⟩ := decodes_of_decodePacket (s := s.present rest p.env draws) rfl hseen he
  exact ⟨(hdecodes.respond r).of_present, hcache⟩

/-! ### BATCH and its PACKET commands -/

theorem running_of_packets {packets : List RawPacket} {s t : State} {draws : Draws} {rest : List Event}
    {rs : List (Option Response)} (hin : s.input = packets.map (RawPacket.event draws) ++ rest)
    (h : runCollect packets.length s = some (t, rs)) (ht : t.running) : s.running := by
  have hissues : packets.map (RawPacket.event draws) = (packets.map (RawPacket.issue draws)).map Issue.event := by
    rw [List.map_map]
    rfl
  rw [hissues] at hin
  exact running_of_runCollect hin (by rw [List.length_map]; exact h) ht

/-- The packets of a batch, one PACKET after another, decode as the batch function says (R163). -/
theorem decodes_of_runCollect {packets : List RawPacket} {s t : State} {draws : Draws} {rest : List Event}
    {earlier : List (List Byte)} {rs : List (Option Response)} (hlen : ∀ p ∈ packets, p.pkt.length = s.cfg.pktLen)
    (hseen : ∀ b, b ∈ s.cache ↔ b ∈ earlier) (hin : s.input = packets.map (RawPacket.event draws) ++ rest)
    (h : runCollect packets.length s = some (t, rs)) (ht : t.running) :
    Decodes (decodedPackets s.cfg earlier packets) rs s t ∧ t.input = rest := by
  induction packets generalizing s earlier rs with
  | nil => cases h; exact ⟨.of_same rfl rfl rfl rfl rfl rfl, hin⟩
  | cons p ps ih =>
    have hrun := running_of_packets hin h ht
    rw [List.forall_mem_cons] at hlen
    obtain ⟨s', rs', hstep, hrest, rfl⟩ := runCollect_succ_eq_some h
    have hin' := input_of_step (c := p.issue draws) hin hstep
    obtain ⟨hhead, hseen'⟩ :=
      decodes_of_step hrun hlen.1 hseen hin hstep (running_of_packets hin' hrest ht)
    obtain ⟨htail, htin⟩ := ih (hhead.cfg_eq ▸ hlen.2) hseen' hin' hrest
    rw [hhead.cfg_eq] at htail
    rw [decodedPackets_cons]
    exact ⟨hhead.append htail, htin⟩

/-- BATCH answers no message and leaves no key seen (R151). -/
theorem decodes_of_batch_step {s t : State} {env : Env} {draws : Draws} {rest : List Event} (hrun : s.running)
    (hin : s.input = .command (encode .batch) env draws :: rest) (h : step s = .next t) :
    Decodes [] [t.resp] s t ∧ t.cache = [] := by
  have hexec := exec_of_effectOf_ok (i := .batch) (s := s.present rest env draws) hrun rfl
  rw [step_of_command hin (decodeUndoesEncode _ .batch rfl), hexec] at h
  cases h
  exact ⟨.of_same (acceptedResponses_of_w0_eq_zero rfl) rfl rfl rfl rfl rfl, rfl⟩

theorem decodes_of_batch {packets : List RawPacket} {s t : State} {env : Env} {draws : Draws} {rest : List Event}
    {rs : List (Option Response)} (hrun : s.running) (hlen : ∀ p ∈ packets, p.pkt.length = s.cfg.pktLen)
    (hin : s.input = .command (encode .batch) env draws :: (packets.map (RawPacket.event draws) ++ rest))
    (h : runCollect (packets.length + 1) s = some (t, rs)) (ht : t.running) :
    Decodes (decodedPackets s.cfg [] packets) rs s t ∧ t.input = rest := by
  obtain ⟨s', rs', hstep, hrest, rfl⟩ := runCollect_succ_eq_some h
  obtain ⟨hhead, hempty⟩ := decodes_of_batch_step hrun hin hstep
  have hin' := input_of_step (c := ⟨.batch, env, draws⟩) hin hstep
  obtain ⟨htail, htin⟩ := decodes_of_runCollect (earlier := []) (hhead.cfg_eq ▸ hlen) (by simp [hempty]) hin' hrest ht
  rw [hhead.cfg_eq] at htail
  exact ⟨hhead.append htail, htin⟩

/-- Settles O44. -/
theorem seenPolicyDoesNotChangeWhatDecodes : Obligations.SeenPolicyDoesNotChangeWhatDecodes := by
  intro s t packets env draws rest rs hrun _ hlen hin h ht
  obtain ⟨hdecodes, -⟩ := decodes_of_batch hrun hlen hin h ht
  rw [← decodedPackets_eq_validSeen packets fun _ _ => Iff.rfl]
  exact hdecodes.messages

/-- Settles O45. -/
theorem packetCommandsComputeTheBatchFunction : Obligations.PacketCommandsComputeTheBatchFunction := by
  intro s t packets env draws rest rs hrun _ hlen hin h ht decoded
  obtain ⟨hdecodes, htin⟩ := decodes_of_batch hrun hlen hin h ht
  obtain ⟨es, hes, hcompounds⟩ := hdecodes.measured
  refine ⟨hdecodes.messages, ⟨es, hes.length_eq.symm, fun n hn => ?_, hcompounds.curErr_eq⟩, fun k => ?_,
    hcompounds.hopIdx_eq, hcompounds.cfg_eq, htin⟩
  · have hn' : n < es.length := hes.length_eq ▸ hn
    exact ⟨decoded[n], es[n], List.getElem?_eq_getElem hn, List.getElem?_eq_getElem hn', hes.get hn hn'⟩
  · split
    · rename_i hk
      obtain ⟨hne, rfl⟩ := hk
      refine hcompounds.holds (.inl ?_)
      rintro rfl
      exact hne (List.forall₂_nil_right_iff.mp hes)
    · rename_i hk
      by_cases hnil : decoded = []
      · obtain ⟨hval, hvalid⟩ := hdecodes.entries_of_nil hnil
        rw [hval, hvalid]
        exact ⟨rfl, rfl⟩
      · exact hcompounds.others k fun hcurrent => hk ⟨hnil, hcurrent⟩

end Sys2Proof.Machine
end

section
/-! PROOFS. The packet frame parser and the names of the sensor codes (R180, R182, R184). -/

namespace Sys2Proof.Machine

/-- Settles O46. The high nibble of P[0] is the code that `sensorOfCode` reads, so SENSOR and KNOWN are those of that
nibble. -/
theorem frameReadsTheFields : Obligations.FrameReadsTheFields := by
  intro b0 b1 b2 b3 b4 tail sidx m
  obtain ⟨hid, hcode⟩ := nibbles_toNat b2
  rw [show m = _ from frame_of_drop rfl sidx]
  refine ⟨hid, ?sensor, ?known, rfl, rfl, rfl, rfl⟩
  case sensor => rw [sensorCode_sensorOfCode, hcode]
  case known => rw [sensorKnown_sensorOfCode, decide_eq_true_iff, hcode]

/-- Settles O47, by evaluating the sixteen codes. -/
theorem sensorNamesOfTheSixteenCodes : Obligations.SensorNamesOfTheSixteenCodes := by
  unfold Obligations.SensorNamesOfTheSixteenCodes
  decide

end Sys2Proof.Machine
end

section
/-! PROOFS. The STATUS readback (R200, R85). -/

namespace Sys2Proof.Machine

/-- The layout of W0 of a STATUS response (R85): HOP_IDX in bits 3..0, FAULT from bit 4, LUT_VALID from bit 16. -/
theorem statusResponse_w0_toNat (s : State) :
    (statusResponse s).w0.toNat = s.hopIdx.val + 16 * s.fault.bits.toNat + 65536 * s.lutValid.toNat := by
  have hhop : s.hopIdx.val < 9 := s.hopIdx.isLt
  simp only [statusResponse, toNat_append_eq_add, BitVec.toNat_ofNat]
  omega

/-- Settles O48. -/
theorem statusReportsTheState : Obligations.StatusReportsTheState :=
  ⟨by decide, fun s => ⟨(statusResponse s).w0, statusResponse_w0_toNat s, exec_status s⟩⟩

end Sys2Proof.Machine
end

section
/-! PROOFS. The codes of FAULT (R221), the precision of faults (R224, R86) and the idle step (R234, R253). -/

namespace Sys2Proof.Machine

/-- FAULT holds no code of 7..15 (R221). -/
theorem FaultCode.bits_toNat_lt_seven (c : FaultCode) : c.bits.toNat < 7 := by
  cases c <;> decide

/-- Settles O49. -/
theorem faultCodesOfTheTable : Obligations.FaultCodesOfTheTable :=
  ⟨rfl, rfl, rfl, rfl, rfl, rfl, rfl, FaultCode.bits_toNat_lt_seven⟩

/-- Settles O8. -/
theorem idleBlockHoldsItsState : Obligations.IdleBlockHoldsItsState :=
  fun _ hin => step_of_idle hin

/-- Settles O50: a command that completes keeps FAULT, so one after which the block no longer runs raised a fault on the
state from before it. -/
theorem faultsArePrecise : Obligations.FaultsArePrecise := by
  intro i s t hrun h hstopped
  rcases exec_writes h with ⟨-, c, -, rfl⟩ | ⟨u, r, rfl, hcompletes⟩
  · exact h
  · obtain ⟨-, -, -, -, hfault⟩ := hcompletes.frame
    exact absurd (hfault.trans hrun) hstopped

end Sys2Proof.Machine
end

section
/-! PROOFS. Reset: the values it gives the state elements and what it keeps (R250, R251), the first hop after it (R253),
and the invariant (R254). -/

namespace Sys2Proof.Machine

/-- Settles O10. -/
theorem resetStepGivesTheResetValues : Obligations.ResetStepGivesTheResetValues :=
  fun s rest hin => ⟨{ s with input := rest }.resetBlock, step_of_reset hin, rfl, rfl, rfl, rfl, rfl, rfl, rfl⟩

/-- Settles O11. -/
theorem resetStepKeepsTheHostsEvents : Obligations.ResetStepKeepsTheHostsEvents :=
  fun s rest hin => ⟨{ s with input := rest }.resetBlock, step_of_reset hin, rfl, rfl, rfl, rfl⟩

/-- Settles O12. -/
theorem resetStateHasTheResetValues : Obligations.ResetStateHasTheResetValues :=
  ⟨rfl, fun _ => ⟨rfl, rfl, rfl, rfl, rfl, rfl, rfl, rfl⟩⟩

/-- While no entry is valid, every descriptor carries CUR_ERR (R111, R253). -/
theorem errorOn_of_lutValid_eq_zero {s : State} (h : s.lutValid = 0) (ch : Channel) : s.errorOn ch = s.curErr :=
  errorOn_of_invalid (h ▸ lutValidBit_zero ch)

/-- With no valid entry and CUR_ERR = 0, as reset leaves them, a hop answers an error of 0 (R251, R253). -/
theorem hopAnswer_of_reset_values {s : State} (hvalid : s.lutValid = 0) (herr : s.curErr = 0) (j : HopIndex) :
    s.hopAnswer j =
      { rs := .ok
        w0 := BitVec.ofNat 32 (s.cfg.hopPattern[j]).val
        w1 := s.cfg.channelTable[s.cfg.hopPattern[j]]
        w2 := 0
        pay := [] } := by
  rw [State.hopAnswer, errorOn_of_lutValid_eq_zero hvalid, herr]

/-- Settles O24: neither hop finds a valid entry, so both answer the CUR_ERR of reset. -/
theorem firstHopAfterReset : Obligations.FirstHopAfterReset := by
  refine fun c => ⟨⟨_, exec_advance_of_running rfl, rfl, ?advance⟩,
    fun draws => ⟨_, exec_resync_of_running rfl, rfl, ?resync⟩⟩
  case advance => exact congrArg some (hopAnswer_of_reset_values rfl rfl 1)
  case resync => exact congrArg some (hopAnswer_of_reset_values rfl rfl draws.hop)

/-- The block right after reset meets the invariant where its configuration is well formed: its cache is empty. -/
theorem State.Inv.of_resetWith {c : Config} (hwf : c.wf = true) : (State.resetWith c).Inv :=
  .of_empty hwf rfl rfl

/-- Settles O55. -/
theorem invariantHoldsAtReset : Obligations.InvariantHoldsAtReset :=
  ⟨fun _ => .of_resetWith, .of_resetWith Config.build_wf⟩

end Sys2Proof.Machine
end
